-- ==== Sys2Proof/Word.lean ====
section
/-! DEFINITION. The widths the spec works in: bytes, words, command words, and a file of eight words. -/

namespace Sys2Proof

/-- A *byte*: a bit string of width 8 (rule R8). -/
abbrev Byte := BitVec 8

/-- A *word*: a bit string of width 64 (rule R8, parameter WORD of rule R7). -/
abbrev Word := BitVec 64

/-- A command word `cmd[15:0]` (rule R70, parameter CMDW of rule R7). -/
abbrev CommandWord := BitVec 16

/-- A sequence of eight words, indexed 0 to 7 (rule R13; parameter NWORDS of rule R7): the shape of H, M, K, X and of
every result of the compression function. -/
structure Words where
  w0 : Word
  w1 : Word
  w2 : Word
  w3 : Word
  w4 : Word
  w5 : Word
  w6 : Word
  w7 : Word
  deriving DecidableEq, Repr

/-- Word `i` of a sequence of eight. -/
def Words.get (a : Words) : Fin 8 → Word
  | 0 => a.w0
  | 1 => a.w1
  | 2 => a.w2
  | 3 => a.w3
  | 4 => a.w4
  | 5 => a.w5
  | 6 => a.w6
  | 7 => a.w7

/-- The sequence whose word `i` is `f i`. -/
def Words.ofFn (f : Fin 8 → Word) : Words :=
  ⟨f 0, f 1, f 2, f 3, f 4, f 5, f 6, f 7⟩

/-- Eight zero words. -/
def Words.zero : Words := Words.ofFn fun _ => 0

end Sys2Proof
end

