-- ==== Sys2Proof/Syntax.lean ====
section
/-! DEFINITION. The commands of WPCMD-1: one constructor for each row of spec/opcode_table.json (rule R74). -/

namespace Sys2Proof

/-- The four host commands (rule R74). The pseudo-commands ADDS and HASH have no opcode (rules R83 and R84): they are in
Machine/Script.lean. -/
inductive Instr where
  /-- `INIT`, format N, word 0x0100: start a computation (rule R162). -/
  | init
  /-- `ADD b`, format B, word 0x0200 or'ed with `b`: take one message byte (rule R163). -/
  | add (b : Byte)
  /-- `FINAL`, format N, word 0x0300: finish the computation (rule R170). -/
  | final
  /-- `DIGEST`, format N, word 0x0400: read the digest (rule R176). -/
  | digest
  deriving DecidableEq, Repr

end Sys2Proof
end

