-- ==== Sys2Proof/WellFormed.lean ====
section
/-! DEFINITION. The two fields of a command word and the two checks that tell a command from a reserved word (rules R70 to
R72 and R76). Every term of Instr is well formed by its type, since the one operand is exactly a byte (rule R73): what can be
ill formed is a pair of fields, so the checks stand here, on the fields. -/

namespace Sys2Proof

/-- The two fields of a command word (rule R70). -/
structure CommandFields where
  /-- `op = cmd[15:8]`. -/
  op : Byte
  /-- `imm8 = cmd[7:0]`. -/
  imm8 : Byte
  deriving DecidableEq, Repr

/-- The two command formats (rules R71 and R72). -/
inductive Format where
  /-- No operand: `imm8` must be 0x00 (rule R71). -/
  | n
  /-- Byte operand: `imm8` is the message byte, any value (rule R72). -/
  | b
  deriving DecidableEq, Repr

/-- The format of an opcode, or none where the opcode is not assigned (rule R74). -/
def formatOf (op : Byte) : Option Format :=
  if op = 0x01 then some .n
  else if op = 0x02 then some .b
  else if op = 0x03 then some .n
  else if op = 0x04 then some .n
  else none

/-- Check 1: the opcode is assigned (rule R74). -/
def CommandFields.opAssigned (c : CommandFields) : Bool := (formatOf c.op).isSome

/-- Check 2: a format-N opcode comes with `imm8 = 0x00` (rule R71). -/
def CommandFields.operandLegal (c : CommandFields) : Bool :=
  match formatOf c.op with
  | some .n => c.imm8 = 0x00
  | some .b => true
  | none => true

/-- The fields stand for a command; every other pair is reserved (rule R76). -/
def CommandFields.wellFormed (c : CommandFields) : Bool := c.opAssigned && c.operandLegal

end Sys2Proof
end

