-- ==== Sys2Proof/Decode.lean ====
section
/-! DEFINITION. The decoder of rule R75, total on all 65536 words, the encoder of rule R74, and the opcode map as rows. -/

namespace Sys2Proof

/-- Why a word is reserved (rule R76). -/
inductive DecodeError where
  /-- `op` is 0x00 or in 0x05 .. 0xFF. Raised by `decode`; safe: rule R76 gives such a word no meaning but ILLEGAL_CMD. -/
  | opcodeUnassigned (op : Byte)
  /-- A format-N opcode with `imm8` other than 0x00. Raised by `decode`; safe, as above. -/
  | operandNotZero (op imm8 : Byte)
  deriving DecidableEq, Repr

/-- The fields of a command word (rule R70). -/
def splitWord (w : CommandWord) : CommandFields :=
  { op := w.extractLsb' 8 8, imm8 := w.extractLsb' 0 8 }

/-- The word with the given fields (rule R70). -/
def joinFields (c : CommandFields) : CommandWord := c.op ++ c.imm8

/-- The command that well-formed fields stand for, or the reason why they are reserved (rule R75, in its order). -/
def decodeFields (c : CommandFields) : Except DecodeError Instr :=
  if c.op = 0x01 then
    if c.imm8 = 0x00 then .ok .init else .error (.operandNotZero c.op c.imm8)
  else if c.op = 0x02 then .ok (.add c.imm8)
  else if c.op = 0x03 then
    if c.imm8 = 0x00 then .ok .final else .error (.operandNotZero c.op c.imm8)
  else if c.op = 0x04 then
    if c.imm8 = 0x00 then .ok .digest else .error (.operandNotZero c.op c.imm8)
  else .error (.opcodeUnassigned c.op)

/-- The decoder (rule R75). -/
def decode (w : CommandWord) : Except DecodeError Instr := decodeFields (splitWord w)

/-- The fields of a command (rules R71, R72 and R74). -/
def Instr.fields : Instr → CommandFields
  | .init => { op := 0x01, imm8 := 0x00 }
  | .add b => { op := 0x02, imm8 := b }
  | .final => { op := 0x03, imm8 := 0x00 }
  | .digest => { op := 0x04, imm8 := 0x00 }

/-- A command is well formed when its fields pass both checks of WellFormed.lean. -/
def Instr.wellFormed (i : Instr) : Bool := i.fields.wellFormed

/-- The word of a command (rule R74). -/
def encode (i : Instr) : CommandWord := joinFields i.fields

/-- One row of the opcode map: a word `w` selects the row when `w & mask = match` (rule R74). -/
structure OpcodeRow where
  mnemonic : String
  pattern : CommandWord
  mask : CommandWord
  deriving DecidableEq, Repr

/-- The opcode map (rule R74). -/
def opcodeMap : List OpcodeRow :=
  [ { mnemonic := "INIT", pattern := 0x0100, mask := 0xFFFF },
    { mnemonic := "ADD", pattern := 0x0200, mask := 0xFF00 },
    { mnemonic := "FINAL", pattern := 0x0300, mask := 0xFFFF },
    { mnemonic := "DIGEST", pattern := 0x0400, mask := 0xFFFF } ]

/-- Whether a word selects a row (rule R74). -/
def OpcodeRow.selects (r : OpcodeRow) (w : CommandWord) : Bool := w &&& r.mask = r.pattern

/-- The mnemonic of a command (rule R74). -/
def Instr.mnemonic : Instr → String
  | .init => "INIT"
  | .add _ => "ADD"
  | .final => "FINAL"
  | .digest => "DIGEST"

/-- The word of a row of the opcode table whose `nbits` bits are `w`, every higher bit 0. Every command is one 16-bit word
(rule R77), so there is nothing to lay out in bytes. -/
def tableWord (nbits w : Nat) : CommandWord := BitVec.ofNat 16 (w % 2 ^ nbits)

/-- What the decoder reads from the word of a table row; none where it refuses. -/
def decodeTableWord (nbits w : Nat) : Option Instr := (decode (tableWord nbits w)).toOption

end Sys2Proof
end

