-- ==== Sys2Proof/Config.lean ====
section
/-! DEFINITION. The parameters of CORE that rule R7 fixes. The four latencies and TABLE_IMPL, which R7 leaves OPEN, enter no
rule and no definition of the model (rules R230 and R24), so they have no constant here. The widths of
rule R7 (WORD, CMDW, RESPW and the 256 bits of LENBITS) stand in the types that have them. -/

namespace Sys2Proof.Config

/-- BLOCK: the bytes of a message block and of BUF (rule R7). -/
def blockBytes : Nat := 64

/-- LENFIELD: the bytes the length field takes at the end of the last block (rule R7). -/
def lenFieldBytes : Nat := 32

/-- POLY: the reduction polynomial of GF(2^8) doubling, as its nine coefficient bits (rule R7). -/
def poly : BitVec 9 := 0x11D

/-- ROUNDS: the ten round numbers, in the order the rounds run (rules R7 and R125). -/
def roundNumbers : List (Fin 10) := [0, 1, 2, 3, 4, 5, 6, 7, 8, 9]

end Sys2Proof.Config
end

