-- ==== Sys2Proof/Machine/Operands.lean ====
section
/-! DEFINITION. The notation of 00_scope.md as operations: the byte of a word, concatenation, rotation, exclusive or over
sequences, and sequences given by an index function (rules R9 to R13), with the byte order of rule R51. -/

namespace Sys2Proof.Machine

/-- A sequence of `n` items whose item `i` is `f i` (rule R13). -/
def tabulate {α : Type} (n : Nat) (f : Nat → α) : Vector α n :=
  ⟨((List.range n).map f).toArray, by simp⟩

/-- BYTE: byte `t` of a word, `w[63 - 8t : 56 - 8t]`, byte 0 the most significant (rules R9 and R120). -/
def byteOf (w : Word) (t : Fin 8) : Byte := w.extractLsb' (56 - 8 * t.val) 8

/-- `b0 ‖ b1 ‖ ... ‖ b7`, the first byte most significant (rule R10). -/
def packWord (b : Fin 8 → Byte) : Word := b 0 ++ b 1 ++ b 2 ++ b 3 ++ b 4 ++ b 5 ++ b 6 ++ b 7

/-- Rotation to the right by `n` bits, `n` in 0 .. 63 (rule R12). -/
def ror64 (w : Word) (n : Nat) : Word := w >>> n ||| w <<< (64 - n)

/-- `XOR over t = 0..7 of f(t)` (rule R11). -/
def xorOver (f : Fin 8 → Word) : Word := f 0 ^^^ f 1 ^^^ f 2 ^^^ f 3 ^^^ f 4 ^^^ f 5 ^^^ f 6 ^^^ f 7

/-- Exclusive or of two sequences of eight words, word by word (rule R11). -/
def xorWords (a b : Words) : Words := Words.ofFn fun i => a.get i ^^^ b.get i

/-- Byte `t` of the field `v`, of `n` bytes, most significant byte first (rules R51 and R145). -/
def byteOfField {width : Nat} (n : Nat) (v : BitVec width) (t : Nat) : Byte := v.extractLsb' (8 * (n - 1 - t)) 8

end Sys2Proof.Machine
end

