-- ==== Sys2Proof/Machine/ConstantGenerator.lean ====
section
/-! DEFINITION. The Constant Generator (40_constant_generator.md): the internal operations XTIME, MULT, CROW0, CROWS, RCGEN and
GEN, and the three read-only address spaces SROM, CROM and RCROM they read and fill (rule R50). -/

namespace Sys2Proof.Machine

/-- The three tables: SROM, CROM and RCROM (rules R20, R22, R23 and R50). Only reset writes CROM and RCROM, and nothing writes
SROM (rule R24). -/
structure Tables where
  /-- S: 256 bytes. -/
  srom : Vector Byte 256
  /-- C: 8 rows of 256 words; rule R50's flat index `256 t + x` is row `t`, column `x`. -/
  crom : Vector (Vector Word 256) 8
  /-- RC: 10 words. -/
  rcrom : Vector Word 10
  deriving DecidableEq, Repr

/-- `S[x]`, that is `MemRead(SROM:x, 1)` (rule R15). -/
def Tables.S (T : Tables) (x : Byte) : Byte := T.srom[x.toNat]'(x.isLt)

/-- `C[t][x]`, that is `MemRead(CROM:256 t + x, 8)` (rule R15). -/
def Tables.C (T : Tables) (t : Fin 8) (x : Byte) : Word := (T.crom[t])[x.toNat]'(x.isLt)

/-- `RC[r]`, that is `MemRead(RCROM:r, 8)` (rule R15). -/
def Tables.RC (T : Tables) (r : Fin 10) : Word := T.rcrom[r]

/-- XTIME: doubling in GF(2^8) modulo POLY (rule R100). -/
def xtime (v : Byte) : Byte :=
  let d : BitVec 9 := v.setWidth 9 <<< 1
  (if d.getLsbD 8 then d ^^^ Config.poly else d).setWidth 8

/-- The six multiples of one substitution value (rule R101). -/
structure Multiples where
  v1 : Byte
  v2 : Byte
  v4 : Byte
  v8 : Byte
  v5 : Byte
  v9 : Byte
  deriving DecidableEq, Repr

/-- MULT, from the substitution value `v1 = S[x]` (rule R101). -/
def mult (v1 : Byte) : Multiples :=
  let v2 := xtime v1
  let v4 := xtime v2
  let v8 := xtime v4
  { v1 := v1, v2 := v2, v4 := v4, v8 := v8, v5 := v4 ^^^ v1, v9 := v8 ^^^ v1 }

/-- The product `c · v` in GF(2^8) of a multiplier below 16 and a byte, from XTIME and exclusive or (rules R101 and R104). -/
def gfTimes (c : BitVec 4) (v : Byte) : Byte :=
  let m := mult v
  (if c.getLsbD 0 then m.v1 else 0) ^^^ (if c.getLsbD 1 then m.v2 else 0) ^^^
    (if c.getLsbD 2 then m.v4 else 0) ^^^ (if c.getLsbD 3 then m.v8 else 0)

/-- The multiplier list `m = (1, 1, 4, 1, 8, 5, 2, 9)` of a row-0 word (rules R102 and R104). -/
def rowMultiplier : Fin 8 → BitVec 4
  | 0 => 1
  | 1 => 1
  | 2 => 4
  | 3 => 1
  | 4 => 8
  | 5 => 5
  | 6 => 2
  | 7 => 9

/-- CROW0: the word `v1‖v1‖v4‖v1‖v8‖v5‖v2‖v9` of row 0 for the substitution value `S[x]` (rule R102). -/
def crow0 (sx : Byte) : Word :=
  let m := mult sx
  m.v1 ++ m.v1 ++ m.v4 ++ m.v1 ++ m.v8 ++ m.v5 ++ m.v2 ++ m.v9

/-- CROWS: row `t` from row 0, rotated right by `t` bytes; for `t = 0` it is row 0 itself (rule R103). -/
def crows (w : Word) (t : Nat) : Word := ror64 w (8 * t)

/-- The eight bits of byte position `t`, in place (rule R105). -/
def byteMask (t : Fin 8) : Word := (0xFF : Word) <<< (56 - 8 * t.val)

/-- RCGEN: round constant `r` from eight entries of C, each masked to its byte position (rule R105). -/
def rcgen (c : Fin 8 → Byte → Word) (r : Nat) : Word :=
  xorOver fun t => c t (BitVec.ofNat 8 (8 * r + t.val)) &&& byteMask t

/-- The contents GEN gives CROM (rules R102, R103 and R107). -/
def genC (srom : Vector Byte 256) : Vector (Vector Word 256) 8 :=
  tabulate 8 fun t => tabulate 256 fun x => crows (crow0 (srom.toList.getD x 0)) t

/-- GEN: from SROM, the whole of CROM and then, reading CROM, the whole of RCROM (rule R107). -/
def gen (srom : Vector Byte 256) : Tables :=
  let built : Tables := { srom := srom, crom := genC srom, rcrom := tabulate 10 fun _ => 0 }
  { built with rcrom := tabulate 10 (rcgen built.C) }

/-- The tables as reset leaves them (rules R38 and R221). -/
def Tables.built : Tables := gen sbox

end Sys2Proof.Machine
end

