-- ==== Sys2Proof/Machine/Compression.lean ====
section
/-! DEFINITION. The Compression Function (41_compression.md): LAYER, KEYROUND, STATEROUND, ROUND and COMPRESS. All are pure
functions of their operands and the tables (rule R126). BYTE is `byteOf` of Operands.lean. -/

namespace Sys2Proof.Machine

/-- LAYER: `L[i] = XOR over t of C[t][BYTE(A[(i - t) mod 8], t)]` (rule R121). Subtraction in `Fin 8` is the non-negative
remainder. -/
def layer (T : Tables) (a : Words) : Words :=
  Words.ofFn fun i => xorOver fun t => T.C t (byteOf (a.get (i - t)) t)

/-- KEYROUND: LAYER of the key, then RC[r] into word 0 (rule R122). -/
def keyRound (T : Tables) (k : Words) (r : Fin 10) : Words :=
  let l := layer T k
  { l with w0 := l.w0 ^^^ T.RC r }

/-- STATEROUND: LAYER of the state, exclusive-ored with the new key of the same round (rule R123). -/
def stateRound (T : Tables) (x k' : Words) : Words := xorWords (layer T x) k'

/-- The pair (K, X) the permutation works on (rule R34). -/
structure RoundPair where
  key : Words
  state : Words
  deriving DecidableEq, Repr

/-- ROUND: the key step, then the state step with the new key (rule R124). -/
def round (T : Tables) (p : RoundPair) (r : Fin 10) : RoundPair :=
  let k' := keyRound T p.key r
  { key := k', state := stateRound T p.state k' }

/-- The keyed permutation: rounds 0 to 9 in order (rule R125, step 2). -/
def permute (T : Tables) (p : RoundPair) : RoundPair := Config.roundNumbers.foldl (round T) p

/-- COMPRESS: the 10-round permutation of M xor H under key H, then the feed-forward of H and M (rule R125). -/
def compress (T : Tables) (h m : Words) : Words :=
  xorWords (xorWords h (permute T { key := h, state := xorWords m h }).state) m

end Sys2Proof.Machine
end

