-- ==== Sys2Proof/Machine/Memory.lean ====
section
/-! DEFINITION. The one writable address space, BUF (rules R26 and R50): 64 bytes at indices 0 to 63, held as a list of
(index, byte) cells in one canonical form. An unlisted index reads as 0x00, the value reset and INIT give every byte of BUF
(rules R38 and R162). -/

namespace Sys2Proof.Machine

/-- The contents of BUF as cells with rising indices, none of them 0x00. -/
abbrev Memory := List Host.Cell

/-- What an unlisted index reads as (rule R38). -/
def Memory.unlisted : Byte := 0x00

/-- `0^64`, the all-zero buffer (rule R13). -/
def Memory.zero : Memory := []

/-- `MemRead(BUF:a, 1)` (rule R15). -/
def Memory.read : Memory → Nat → Byte
  | [], _ => Memory.unlisted
  | (k, v) :: m, a => if a = k then v else Memory.read m a

/-- `MemWrite(BUF:a, 1, b)` (rule R15), keeping the canonical form: a byte equal to the unlisted value has no cell. -/
def Memory.write : Memory → Nat → Byte → Memory
  | [], a, b => if b = Memory.unlisted then [] else [(a, b)]
  | (k, v) :: m, a, b =>
    if a < k then (if b = Memory.unlisted then (k, v) :: m else (a, b) :: (k, v) :: m)
    else if a = k then (if b = Memory.unlisted then m else (a, b) :: m)
    else (k, v) :: Memory.write m a b

/-- The canonical form: every cell's index lies below every later cell's, is at least `lo` and below 64, and no cell holds the
unlisted value. -/
def Memory.wfFrom : Nat → Memory → Bool
  | _, [] => true
  | lo, (k, v) :: m =>
    decide (lo ≤ k) && decide (k < Config.blockBytes) && decide (v ≠ Memory.unlisted) && Memory.wfFrom (k + 1) m

/-- The canonical form of BUF. -/
def Memory.wf (m : Memory) : Bool := Memory.wfFrom 0 m

/-- `for j = n..63: BUF[j] <- 0x00` (rule R146). -/
def Memory.zeroFrom (m : Memory) (n : Nat) : Memory :=
  (List.range' n (Config.blockBytes - n)).foldl (fun m j => m.write j 0x00) m

end Sys2Proof.Machine
end

