-- ==== Sys2Proof/Machine/State.lean ====
section
/-! DEFINITION. The state of CORE (10_state.md), the responses it gives, the host's moves it has not yet taken, and the state
right after reset. -/

namespace Sys2Proof.Machine

/-- The states of the Hash Driver (rule R29). The code 0b11, which no rule writes, cannot be represented
(93_implementation_defined.md U8). -/
inductive DriverState where
  /-- 0b00: no computation has been started since reset. -/
  | empty
  /-- 0b01: a computation is in progress and takes bytes. -/
  | accumulating
  /-- 0b10: the computation is finished and H holds the digest. -/
  | finalized
  deriving DecidableEq, Repr

/-- A digest: exactly 64 bytes (rule R148). -/
abbrev Digest := Vector Byte 64

/-- A response (rules R78 and R190). Only OK can carry data, so a refusal never carries any. -/
inductive Response where
  /-- OK; the data is present when the command was DIGEST. -/
  | ok (data : Option Digest)
  /-- INVALID_STATE (rule R191). -/
  | invalidState
  /-- LENGTH_OVERFLOW (rule R192). -/
  | lengthOverflow
  /-- ILLEGAL_CMD (rule R193). -/
  | illegalCmd
  deriving DecidableEq, Repr

/-- What the host may do to CORE between commands (rule R226). Sampling STATUS is no move: it is the view `State.status`,
which changes nothing (rule R31). -/
inductive HostMove where
  /-- Present a command word. -/
  | command (w : CommandWord)
  /-- Assert reset and let it end (rule R220). -/
  | reset
  deriving DecidableEq, Repr

/-- Why a step could fault. There is no constructor: every command word has a defined response in every state (rules R161 and
R194) and every index is in range (rule R53), so no step of CORE faults. -/
inductive Fault
  deriving DecidableEq, Repr

/-- Why a step could be refused. -/
inductive Refusal where
  /-- Raised only by an arm of `exec` whose command has no meaning yet; there is none. Safe: a run stops where it is raised. -/
  | notModelled (mnemonic : String)
  deriving DecidableEq, Repr

/-- Everything the spec gives CORE (rules R20 to R32 and R38), and the two ports. K, X and the round index are working values
that no rule keeps between commands (rule R34), so they are not here. -/
structure State where
  /-- SROM, CROM and RCROM (rules R20 to R24). -/
  tables : Tables
  /-- H, the chaining value (rule R25). -/
  h : Words
  /-- BUF, the input buffer (rule R26). -/
  buf : Memory
  /-- POS, the occupied-bytes count (rule R27). -/
  pos : BitVec 6
  /-- LEN, the bit counter (rule R28). -/
  len : BitVec 256
  /-- ST (rule R29). -/
  st : DriverState
  /-- ERR: bit 0 is IS, bit 1 is LO (rule R30). -/
  err : BitVec 2
  /-- The response port: the answer to the last command since reset, none before the first (rule R78). -/
  resp : Option Response
  /-- The host's moves CORE has not taken yet, the next one first: the model's own field (log entry 2). -/
  host : List HostMove
  deriving DecidableEq, Repr

/-- The state when reset ends (rules R38, R220 and R221). -/
def State.reset : State where
  tables := Tables.built
  h := Words.zero
  buf := Memory.zero
  pos := 0
  len := 0
  st := .empty
  err := 0b00
  resp := none
  host := []

end Sys2Proof.Machine
end

