-- ==== Sys2Proof/Machine/Flags.lean ====
section
/-! DEFINITION. The flags of CORE (rule R30), the three errors and the flag each sets (rules R16 and R190), and the views of ST,
ERR and the responses as codes (rules R29, R31, R78 and R79). -/

namespace Sys2Proof.Machine

/-- The three errors a command can raise (rule R190). -/
inductive CoreError where
  | invalidState
  | lengthOverflow
  | illegalCmd
  deriving DecidableEq, Repr

/-- IS, that is ERR[0] (rule R30). -/
def flagIS : BitVec 2 := 0b01

/-- LO, that is ERR[1] (rule R30). -/
def flagLO : BitVec 2 := 0b10

/-- The flag an error sets; ILLEGAL_CMD sets none (rules R190 and R193). -/
def CoreError.flag : CoreError → BitVec 2
  | .invalidState => flagIS
  | .lengthOverflow => flagLO
  | .illegalCmd => 0b00

/-- The response an error gives (rules R16 and R190). -/
def CoreError.response : CoreError → Response
  | .invalidState => .invalidState
  | .lengthOverflow => .lengthOverflow
  | .illegalCmd => .illegalCmd

/-- The sticky flags after an error (rule R30): a flag once set stays set. -/
def errAfter (err : BitVec 2) (e : CoreError) : BitVec 2 := err ||| e.flag

/-- IS is set. -/
def State.isFlag (s : State) : Bool := s.err.getLsbD 0

/-- LO is set. -/
def State.loFlag (s : State) : Bool := s.err.getLsbD 1

/-- A computation is live when ERR = 0, dead otherwise (rule R160). -/
def State.live (s : State) : Bool := s.err = 0b00

/-- The encoding of ST (rule R29). -/
def DriverState.code : DriverState → BitVec 2
  | .empty => 0b00
  | .accumulating => 0b01
  | .finalized => 0b10

/-- STATUS: bits 1:0 are ST, bit 2 is IS, bit 3 is LO, bits 7:4 are zero (rule R31). -/
def State.status (s : State) : BitVec 8 := (0 : BitVec 4) ++ s.err ++ s.st.code

/-- `resp[1:0]` (rule R78). -/
def Response.code : Response → BitVec 2
  | .ok _ => 0b00
  | .invalidState => 0b01
  | .lengthOverflow => 0b10
  | .illegalCmd => 0b11

/-- The data of a response, where it has any (rule R78). -/
def Response.data : Response → Option Digest
  | .ok d => d
  | .invalidState => none
  | .lengthOverflow => none
  | .illegalCmd => none

/-- `dout[511:0]`: byte `d[j]` at bits `511 - 8j : 504 - 8j`, all zeros where there is no data (rule R79). -/
def Response.dout (r : Response) : BitVec 512 :=
  match r.data with
  | some d => BitVec.ofNat 512 (d.toList.foldl (fun acc b => acc * 256 + b.toNat) 0)
  | none => 0

end Sys2Proof.Machine
end

