-- ==== Sys2Proof/Machine/Ops.lean ====
section
/-! DEFINITION. The named operations over the registers and BUF that the commands are built from, and the two ways a command
ends: `respond` and `raise` (rules R15 and R16). -/

namespace Sys2Proof.Machine

/-- `H <- v` (rule R15). -/
def State.setH (s : State) (v : Words) : State := { s with h := v }

/-- BUF as a whole. -/
def State.setBuf (s : State) (m : Memory) : State := { s with buf := m }

/-- `POS <- v`. -/
def State.setPos (s : State) (v : BitVec 6) : State := { s with pos := v }

/-- `LEN <- v`. -/
def State.setLen (s : State) (v : BitVec 256) : State := { s with len := v }

/-- `ST <- v`. -/
def State.setSt (s : State) (v : DriverState) : State := { s with st := v }

/-- `ERR <- v`. -/
def State.setErr (s : State) (v : BitVec 2) : State := { s with err := v }

/-- Put a response on the response port (rule R78). -/
def State.setResp (s : State) (r : Response) : State := { s with resp := some r }

/-- The host's moves not yet taken. -/
def State.setHost (s : State) (ms : List HostMove) : State := { s with host := ms }

/-- `BUF[j]` (rule R15). -/
def State.bufRead (s : State) (j : Nat) : Byte := s.buf.read j

/-- `BUF[j] <- b` (rule R15). -/
def State.bufWrite (s : State) (j : Nat) (b : Byte) : State := s.setBuf (s.buf.write j b)

/-- `BUF <- 0^64` (rules R13 and R15). -/
def State.bufClear (s : State) : State := s.setBuf Memory.zero

/-- `respond OK` and `respond OK(data)`: end the command with code OK (rule R15). -/
def respond (data : Option Digest) (s : State) : Host.Outcome State Fault Refusal :=
  .next (s.setResp (.ok data))

/-- The state after an error: its flag set in ERR, its code on the response port, nothing else changed (rules R16 and R197). -/
def State.raised (s : State) (e : CoreError) : State := (s.setErr (errAfter s.err e)).setResp e.response

/-- `raise e`, the error entry every refused command takes (rules R16 and R197). There is no handler to enter and nothing to
return from (rules R197 and R200): CORE is ready for the next command, and INIT or reset recovers. -/
def raise (e : CoreError) (s : State) : Host.Outcome State Fault Refusal := .next (s.raised e)

/-- Nothing is presented: CORE is idle and keeps all its state (rule R207). -/
def idle (s : State) : Host.Outcome State Fault Refusal := .next s

/-- Reset: every piece of CORE's state at its reset value, no response (rules R220 and R223). The host's later moves, which are
not CORE's, stay. -/
def performReset (s : State) : Host.Outcome State Fault Refusal := .next (State.reset.setHost s.host)

end Sys2Proof.Machine
end

