-- ==== Sys2Proof/Machine/Padding.lean ====
section
/-! DEFINITION. Padding and Block Assembly (42_padding_block_assembly.md): PACK, APPEND, FLUSH, LENENC, PAD and SER as the
incremental operations CORE performs. PADFN, the padding of a whole message, is in Whirlpool.lean. -/

namespace Sys2Proof.Machine

/-- PACK of 64 bytes given by index: `M[i] = B[8i] ‖ ... ‖ B[8i+7]` (rule R140). -/
def packBytes (b : Nat → Byte) : Words :=
  Words.ofFn fun i => packWord fun k => b (8 * i.val + k.val)

/-- PACK: the message block M as a view of BUF (rules R32 and R140). -/
def pack (m : Memory) : Words := packBytes m.read

/-- SER: digest byte `8i + k` is `BYTE(H[i], k)` (rule R148). -/
def ser (h : Words) : Digest :=
  tabulate 64 fun j => byteOf (h.get (Fin.ofNat 8 (j / 8))) (Fin.ofNat 8 (j % 8))

/-- `H <- COMPRESS(H, PACK(BUF))` (rules R142 and R146). -/
def absorbBlock (s : State) : State := s.setH (compress s.tables s.h (pack s.buf))

/-- How many bytes BUF holds after one more is appended: 1 to 64. The value 64 exists inside one command only
(90_conflicts.md C3). -/
def countAfterAppend (s : State) : Nat := s.pos.toNat + 1

/-- APPEND: one byte into BUF at POS, and POS counted up (rule R141). From 63 the register goes to 0 directly, as rule R141
allows; ADD then calls FLUSH, by `countAfterAppend`. -/
def append (b : Byte) (s : State) : State := (s.bufWrite s.pos.toNat b).setPos (s.pos + 1)

/-- FLUSH: a full block into the chaining value, then BUF all zero and POS = 0 (rule R142). -/
def flush (s : State) : State := ((absorbBlock s).bufClear).setPos 0

/-- LENENC on the contents of BUF: LEN into BUF[32 .. 63], most significant byte first (rule R145). -/
def lenencInto (len : BitVec 256) (m : Memory) : Memory :=
  (List.range Config.lenFieldBytes).foldl
    (fun m k => m.write (32 + k) (byteOfField Config.lenFieldBytes len k)) m

/-- LENENC (rule R145). -/
def lenenc (s : State) : State := s.setBuf (lenencInto s.len s.buf)

/-- The first half of PAD: 0x80 at POS, then zeros to the end of the block (rule R146). -/
def padMark (s : State) : State :=
  s.setBuf ((s.buf.write s.pos.toNat 0x80).zeroFrom (countAfterAppend s))

/-- PAD: the mark; if more than 32 bytes are in use, that block is compressed and a fresh all-zero block begun; then the length
field, and the final compression (rule R146). -/
def pad (s : State) : State :=
  let s1 := padMark s
  let s2 := if countAfterAppend s > 32 then (absorbBlock s1).bufClear else s1
  absorbBlock (lenenc s2)

end Sys2Proof.Machine
end

