-- ==== Sys2Proof/Machine/HashDriver.lean ====
section
/-! DEFINITION. The Hash Driver (43_hash_driver.md): the meaning of each of the four commands, every check before the first
write (rules R16 and R198). -/

namespace Sys2Proof.Machine

/-- ADD and FINAL are allowed in a live Accumulating state only (rules R163 and R170). -/
def mayAccumulate (s : State) : Bool := s.st = .accumulating && s.live

/-- DIGEST is allowed in a live Finalized state only (rule R176). -/
def mayRead (s : State) : Bool := s.st = .finalized && s.live

/-- One more byte would carry LEN to 2^256 or beyond (rule R166). -/
def lengthFull (s : State) : Bool := 2 ^ 256 ≤ s.len.toNat + 8

/-- All mutable registers as INIT leaves them (rule R162). The tables and the ports are not touched. -/
def startComputation (s : State) : State :=
  (((((s.setH Words.zero).bufClear).setPos 0).setLen 0).setErr 0b00).setSt .accumulating

/-- INIT: start a computation, in every state and with any ERR (rule R162). -/
def execInit (s : State) : Host.Outcome State Fault Refusal := respond none (startComputation s)

/-- An accepted byte: APPEND, LEN counted up by 8, and FLUSH when the block is full (rules R163 and R165). -/
def takeByte (b : Byte) (s : State) : State :=
  let s1 := (append b s).setLen (s.len + 8)
  if countAfterAppend s = Config.blockBytes then flush s1 else s1

/-- ADD: refused outside a live Accumulating state (rule R164), then refused when the length is full (rule R166), else the
byte is taken (rule R163). -/
def execAdd (b : Byte) (s : State) : Host.Outcome State Fault Refusal :=
  if mayAccumulate s then
    if lengthFull s then raise .lengthOverflow s else respond none (takeByte b s)
  else raise .invalidState s

/-- PAD, then BUF, POS and LEN cleared and ST moved to Finalized (rule R170). -/
def finishComputation (s : State) : State := ((((pad s).bufClear).setPos 0).setLen 0).setSt .finalized

/-- FINAL: finish the computation (rule R170), refused outside a live Accumulating state (rule R171). -/
def execFinal (s : State) : Host.Outcome State Fault Refusal :=
  if mayAccumulate s then respond none (finishComputation s) else raise .invalidState s

/-- DIGEST: OK with SER(H) and no state changed (rule R176), refused outside a live Finalized state (rule R177). -/
def execDigest (s : State) : Host.Outcome State Fault Refusal :=
  if mayRead s then respond (some (ser s.h)) s else raise .invalidState s

end Sys2Proof.Machine
end

