-- ==== Sys2Proof/Machine/Dispatch.lean ====
section
/-! DEFINITION. One arm per command. -/

namespace Sys2Proof.Machine

/-- The effect of a decoded command (rules R162 to R177). -/
def exec (i : Instr) (s : State) : Host.Outcome State Fault Refusal :=
  match i with
  | .init => Sys2Proof.Machine.execInit s
  | .add b => Sys2Proof.Machine.execAdd b s
  | .final => Sys2Proof.Machine.execFinal s
  | .digest => Sys2Proof.Machine.execDigest s

end Sys2Proof.Machine
end

