-- ==== Sys2Proof/Machine/Issue.lean ====
section
/-! DEFINITION. What CORE does with one move of the host: a presented word is decoded and executed, or answered ILLEGAL_CMD
(rules R75, R76 and R193); reset resets. -/

namespace Sys2Proof.Machine

/-- A presented command word: decode first, then the command's own checks (rule R196). A reserved word is answered ILLEGAL_CMD
and changes no other state (rules R76 and R193). -/
def issue (w : CommandWord) (s : State) : Host.Outcome State Fault Refusal :=
  match decode w with
  | .ok i => exec i s
  | .error _ => raise .illegalCmd s

/-- One move of the host, taken by CORE (rule R226). -/
def takeMove (mv : HostMove) (s : State) : Host.Outcome State Fault Refusal :=
  match mv with
  | .command w => issue w s
  | .reset => performReset s

/-- The host presents a word before anything else it had in mind. -/
def present (w : CommandWord) (s : State) : State := s.setHost (.command w :: s.host)

end Sys2Proof.Machine
end

