-- ==== Sys2Proof/Machine/Step.lean ====
section
/-! DEFINITION. One step of CORE: it takes the host's next move, the whole of it (rule R17), or is idle. -/

namespace Sys2Proof.Machine

/-- One step (rules R17, R207 and R227). -/
def step (s : State) : Host.Outcome State Fault Refusal :=
  match s.host with
  | [] => idle s
  | mv :: rest => takeMove mv (s.setHost rest)

/-- The state in which the next word CORE takes is the given word of the opcode table. CORE fetches nothing (rule R33): the
host presents the word. -/
def State.withFetchWord (s : State) (nbits w : Nat) : State := present (tableWord nbits w) s

end Sys2Proof.Machine
end

