-- ==== Sys2Proof/Machine/Whirlpool.lean ====
section
/-! DEFINITION. PADFN: the hash of a whole message as one function (rule R147), and the chaining value after the first blocks
of a byte sequence. The commands never call it: it is what their effect over a whole computation is compared with. -/

namespace Sys2Proof.Machine

/-- `z = (31 - n) mod 64`, the non-negative remainder (rule R147). -/
def padZeros (n : Nat) : Nat := (95 - n % 64) % 64

/-- `BE256(v)`: `v` as 32 bytes, most significant first (rule R147). -/
def be256 (v : Nat) : List Byte :=
  (List.range Config.lenFieldBytes).map fun k => byteOfField Config.lenFieldBytes (BitVec.ofNat 256 v) k

/-- `P(m) = m ‖ 0x80 ‖ 0x00^z ‖ BE256(8n)` (rule R147). -/
def padfn (m : List Byte) : List Byte :=
  m ++ ([0x80] ++ List.replicate (padZeros m.length) 0x00) ++ be256 (8 * m.length)

/-- The number of blocks of `P(m)` for a message of `n` bytes (rule R147). -/
def blockCount (n : Nat) : Nat := (n + 1 + padZeros n + Config.lenFieldBytes) / Config.blockBytes

/-- `PACK(B_j)`: piece `j` of 64 bytes of a byte sequence, as eight words (rules R140 and R147). -/
def blockAt (p : List Byte) (j : Nat) : Words := packBytes fun k => p.getD (Config.blockBytes * j + k) 0x00

/-- `H_j`: the chaining value after the first `j` blocks of a byte sequence (rule R147). -/
def chainAfter (T : Tables) (p : List Byte) : Nat → Words
  | 0 => Words.zero
  | j + 1 => compress T (chainAfter T p j) (blockAt p j)

/-- `Whirlpool(m) = SER(H_blocks)` (rule R147). -/
def whirlpool (T : Tables) (m : List Byte) : Digest := ser (chainAfter T (padfn m) (blockCount m.length))

end Sys2Proof.Machine
end

