-- ==== Sys2Proof/Machine/Script.lean ====
section
/-! DEFINITION. The host's side: the pseudo-commands ADDS and HASH with their expansions (rules R83, R84, R180 and R181), and a
conversation of the host with CORE, one word after the response to the word before (rules R17 and R226). -/

namespace Sys2Proof.Machine

/-- One line of a command script (rules R82 to R85). -/
inductive ScriptLine where
  /-- A command of the opcode map. -/
  | command (i : Instr)
  /-- A word sent as it is, the only way to write a reserved word. -/
  | raw (w : CommandWord)
  /-- ADDS of a byte sequence. -/
  | adds (m : List Byte)
  /-- HASH of a byte sequence. -/
  | hash (m : List Byte)
  deriving DecidableEq, Repr

/-- ADDS: one ADD for each byte, in order (rules R83 and R180). -/
def addsWords (m : List Byte) : List CommandWord := m.map fun b => encode (.add b)

/-- HASH: INIT, ADDS, FINAL, DIGEST (rules R84 and R181). -/
def hashWords (m : List Byte) : List CommandWord :=
  [encode .init] ++ addsWords m ++ [encode .final, encode .digest]

/-- The words a script line stands for (rules R82 to R84). -/
def ScriptLine.words : ScriptLine → List CommandWord
  | .command i => [encode i]
  | .raw w => [w]
  | .adds m => addsWords m
  | .hash m => hashWords m

/-- One transaction: the host presents a word and CORE takes it (rule R17). -/
def transact (w : CommandWord) (s : State) : Host.Outcome State Fault Refusal := step (present w s)

/-- The host presents the words one at a time, each after the response to the one before, and collects the responses (rules R78
and R226). None if CORE should stop or give no response. -/
def converse : List CommandWord → State → Option (List Response × State)
  | [], s => some ([], s)
  | w :: ws, s =>
    match transact w s with
    | .next t =>
      match t.resp, converse ws t with
      | some r, some (rs, u) => some (r :: rs, u)
      | _, _ => none
    | .fault _ => none
    | .refused _ => none

end Sys2Proof.Machine
end

