-- ==== Sys2Proof/Machine/Assembler.lean ====
section
/-! DEFINITION. The command-script syntax of rule R82 with the pseudo-commands of rules R83 and R84, read from the characters of
one line. It is host software: no step of CORE depends on it. Where the rules leave a detail of the syntax open, log entry 13
names the model's choice, and the docstrings here cite it. -/

namespace Sys2Proof.Machine

/-- The double quote that opens and closes a text. -/
def textQuote : Char := Char.ofNat 0x22

/-- The single quote around a character operand. -/
def charQuote : Char := Char.ofNat 0x27

/-- The sixteen hexadecimal digits in order, as the spec prints them. -/
def hexDigits : List Char := ['0', '1', '2', '3', '4', '5', '6', '7', '8', '9', 'A', 'B', 'C', 'D', 'E', 'F']

/-- A byte as the spec prints it: `0x`, the digit of its high half, the digit of its low half. -/
def hexText (b : Byte) : List Char :=
  ['0', 'x', hexDigits.getD (b.toNat / 16) '0', hexDigits.getD (b.toNat % 16) '0']

/-- The value of a hexadecimal digit. The lower-case letters are the model's choice (DESIGN CHOICE, log entry 13). -/
def hexDigit (c : Char) : Option Nat :=
  let n := c.toNat
  if 0x30 ≤ n ∧ n ≤ 0x39 then some (n - 0x30)
  else if 0x41 ≤ n ∧ n ≤ 0x46 then some (n - 0x37)
  else if 0x61 ≤ n ∧ n ≤ 0x66 then some (n - 0x57)
  else none

/-- The byte two hexadecimal digits stand for. -/
def hexByte (a b : Char) : Option Byte :=
  match hexDigit a, hexDigit b with
  | some x, some y => some (BitVec.ofNat 8 (16 * x + y))
  | _, _ => none

/-- The single-byte ASCII code of a character (rule R83); none for a character that is not ASCII. -/
def asciiByte (c : Char) : Option Byte :=
  if c.toNat ≤ 0x7F then some (BitVec.ofNat 8 c.toNat) else none

/-- The ASCII code of a printable character, which is all that ADD takes in quotes (rule R82). -/
def printableByte (c : Char) : Option Byte :=
  if 0x20 ≤ c.toNat ∧ c.toNat ≤ 0x7E then asciiByte c else none

/-- Only spaces and then the end of the line, or a comment, follow (rule R82; that spaces may stand there is a DESIGN CHOICE, log
entry 13). -/
def onlyComment : List Char → Bool
  | [] => true
  | c :: cs => if c = ' ' then onlyComment cs else c = ';'

/-- The next character ends a word or an operand: a space, a comment or the end of the line. That a space must separate is a
DESIGN CHOICE (log entry 13). -/
def atBreak : List Char → Bool
  | [] => true
  | c :: _ => c = ' ' || c = ';'

/-- Leading spaces taken off; the space is the only separator (DESIGN CHOICE, log entry 13). -/
def skipSpaces : List Char → List Char
  | [] => []
  | c :: cs => if c = ' ' then skipSpaces cs else c :: cs

/-- The capital letters a line begins with, and the rest. -/
def takeMnemonic : List Char → List Char × List Char
  | [] => ([], [])
  | c :: cs =>
    if c.isUpper then
      let (w, rest) := takeMnemonic cs
      (c :: w, rest)
    else ([], c :: cs)

/-- A text up to its closing quote, one byte a character, and the rest (rule R83). The next double quote closes the text, and a
semicolon before it is a character of the text and opens no comment (DESIGN CHOICE, log entry 13). -/
def takeText : List Char → Option (List Byte × List Char)
  | [] => none
  | c :: cs =>
    if c = textQuote then some ([], cs)
    else
      match asciiByte c, takeText cs with
      | some b, some (bs, rest) => some (b :: bs, rest)
      | _, _ => none

/-- Bytes written `0xNN`, separated by spaces, to the end of the line or a comment (rule R83). -/
def hexBytes : List Char → Option (List Byte)
  | [] => some []
  | ' ' :: cs => hexBytes cs
  | ';' :: _ => some []
  | '0' :: 'x' :: a :: b :: cs =>
    if atBreak cs then
      match hexByte a b, hexBytes cs with
      | some v, some vs => some (v :: vs)
      | _, _ => none
    else none
  | _ :: _ => none

/-- The byte sequence of ADDS and HASH: a quoted text or bytes (rules R83 and R84). With no operand it is empty (DESIGN CHOICE, log
entry 13). -/
def bytesOperand (cs : List Char) : Option (List Byte) :=
  match skipSpaces cs with
  | [] => some []
  | c :: rest =>
    if c = textQuote then
      match takeText rest with
      | some (bs, tail) => if onlyComment tail then some bs else none
      | none => none
    else hexBytes (c :: rest)

/-- The operand of ADD: `0xNN` or one printable character in single quotes (rule R82). The single quote and the semicolon are such
characters too (DESIGN CHOICE, log entry 13). -/
def byteOperand (cs : List Char) : Option Byte :=
  match skipSpaces cs with
  | '0' :: 'x' :: a :: b :: tail => if onlyComment tail then hexByte a b else none
  | q :: c :: q' :: tail =>
    if q = charQuote ∧ q' = charQuote ∧ onlyComment tail then printableByte c else none
  | _ => none

/-- The word of a line that holds only `0x` and four hexadecimal digits (rule R82). -/
def rawWord : List Char → Option CommandWord
  | '0' :: 'x' :: a :: b :: c :: d :: tail =>
    match hexByte a b, hexByte c d with
    | some hi, some lo => if onlyComment tail then some (hi ++ lo) else none
    | _, _ => none
  | _ => none

/-- One line of a script, its line end taken off (rules R82 to R84): none for a line that is not of the syntax, `some []` for a blank
or comment line. DESIGN CHOICE (log entry 13): a space must stand between ADD, ADDS or HASH and the operand, so that `ADD'b'` and
`ADD0x61` are refused; spaces may stand before the line's first word; a blank or comment line stands for no command. -/
def parseLine (line : List Char) : Option (List ScriptLine) :=
  let cs := skipSpaces line
  if onlyComment cs then some []
  else
    match takeMnemonic cs with
    | ([], rest) => (rawWord rest).map fun w => [.raw w]
    | (['I', 'N', 'I', 'T'], rest) => if onlyComment rest then some [.command .init] else none
    | (['F', 'I', 'N', 'A', 'L'], rest) => if onlyComment rest then some [.command .final] else none
    | (['D', 'I', 'G', 'E', 'S', 'T'], rest) => if onlyComment rest then some [.command .digest] else none
    | (['A', 'D', 'D'], rest) => if atBreak rest then (byteOperand rest).map fun b => [.command (.add b)] else none
    | (['A', 'D', 'D', 'S'], rest) => if atBreak rest then (bytesOperand rest).map fun m => [.adds m] else none
    | (['H', 'A', 'S', 'H'], rest) => if atBreak rest then (bytesOperand rest).map fun m => [.hash m] else none
    | (_, _) => none

/-- The words of a whole script, one command a line (rules R82 and R85). -/
def assemble : List (List Char) → Option (List CommandWord)
  | [] => some []
  | line :: rest =>
    match parseLine line, assemble rest with
    | some ls, some ws => some ((ls.map ScriptLine.words).flatten ++ ws)
    | _, _ => none

end Sys2Proof.Machine
end

