-- ==== Sys2Proof/Machine/System.lean ====
section
/-! DEFINITION. Several CORE instances side by side (rules R64 and R205): each has a whole state of its own, and one step of the
system is one step of one instance. -/

namespace Sys2Proof.Machine

/-- The instances of a system; they have no identifiers but their places in the list (DESIGN CHOICE, log entry 14). -/
abbrev System := List State

/-- One step of an instance by itself; an instance that could not go on would stay as it is. -/
def stepOrStay (s : State) : State :=
  match step s with
  | .next t => t
  | .fault _ => s
  | .refused _ => s

/-- Instance `k` takes one step (rule R64). -/
def System.stepAt (sys : System) (k : Nat) : System := List.modify sys k stepOrStay

end Sys2Proof.Machine
end

