-- ==== Sys2Proof/Safety.lean ====
section
/-! DEFINITION. What claims about runs speak of: how a computation has ended, what a state has absorbed of a message, and the
invariants that hold between commands. -/

namespace Sys2Proof.Machine

/-- A computation is in progress (rule R187). -/
def State.inProgress (s : State) : Bool := s.st = .accumulating && s.live

/-- A computation has ended well (rule R187). -/
def State.endedWell (s : State) : Bool := s.st = .finalized && s.live

/-- A computation has ended badly, and is dead (rules R160 and R187). -/
def State.endedBadly (s : State) : Bool := !s.live

/-- A step that goes on: it answers a next state. -/
def SafeStep (s : State) : Prop := ∃ t, step s = .next t

/-- The tables hold what GEN makes of S (rules R24 and R38). -/
def TablesBuilt (s : State) : Prop := s.tables = Tables.built

/-- The registers and BUF as rule R36 and rule R149 bound them, with no message in sight. -/
structure BufferInv (s : State) : Prop where
  /-- BUF keeps its canonical form. -/
  bufWf : s.buf.wf = true
  /-- BUF is zero at and after POS (rule R36, clause 3). -/
  zeroTail : ∀ j, s.pos.toNat ≤ j → s.bufRead j = 0x00
  /-- LEN is a multiple of 8 (rule R36, clause 4). -/
  lenWhole : s.len.toNat % 8 = 0
  /-- POS is the message length in bytes, mod 64 (rule R36, clauses 5 to 7). -/
  posLen : s.pos.toNat = s.len.toNat / 8 % 64
  /-- Outside Accumulating nothing is buffered or counted (rule R36, clauses 6 and 7). -/
  quiet : s.st ≠ .accumulating → s.buf = Memory.zero ∧ s.pos = 0 ∧ s.len = 0
  /-- In Empty H is zero (rule R36, clause 7). -/
  emptyH : s.st = .empty → s.h = Words.zero
  /-- LO is set in Accumulating only (rule R36, clause 8). -/
  loOnly : s.loFlag = true → s.st = .accumulating

/-- The state has absorbed exactly the bytes `m` since INIT (rules R36, clause 5, and R167). -/
structure Absorbed (s : State) (m : List Byte) : Prop where
  /-- LEN counts the bits of `m`. -/
  len : s.len.toNat = 8 * m.length
  /-- POS counts the bytes after the last whole block. -/
  pos : s.pos.toNat = m.length % 64
  /-- H is the chaining value after the whole blocks of `m`. -/
  chain : s.h = chainAfter s.tables m (m.length / 64)
  /-- BUF holds the bytes after the last whole block, in order. -/
  head : ∀ j, j < s.pos.toNat → s.bufRead j = m.getD (64 * (m.length / 64) + j) 0x00
  /-- BUF is zero behind them. -/
  tail : ∀ j, s.pos.toNat ≤ j → s.bufRead j = 0x00

/-- The invariant of rule R36, with the message as a witness, and the tables of rule R24. -/
structure Inv (s : State) : Prop where
  /-- The tables are those of reset (rule R24). -/
  tables : TablesBuilt s
  /-- The bounds of the registers and BUF. -/
  buffer : BufferInv s
  /-- In Accumulating the state has absorbed some message (rule R36, clause 5). -/
  absorbed : s.st = .accumulating → ∃ m, Absorbed s m
  /-- In Finalized H is the digest of some message (rule R36, clause 6). -/
  digest : s.st = .finalized → ∃ m, 8 * m.length < 2 ^ 256 ∧ ser s.h = whirlpool s.tables m

end Sys2Proof.Machine
end

