-- ==== Sys2Proof/Certificates/Slice0/Obligations.lean ====
section
/-! DEFINITION. The statements for the provers, in the order of the spec's files. -/

open Sys2Proof
open Sys2Proof.Machine

/-! ### Encoding (30_encoding.md) -/

/-- Rule R75: the decoder, case by case, and how many of the 65536 words fall in each case. -/
def Obligations.DecoderFollowsRule : Prop :=
  (∀ w : CommandWord,
    (w.extractLsb' 8 8 = 0x01 → w.extractLsb' 0 8 = 0x00 → decode w = .ok .init) ∧
    (w.extractLsb' 8 8 = 0x02 → decode w = .ok (.add (w.extractLsb' 0 8))) ∧
    (w.extractLsb' 8 8 = 0x03 → w.extractLsb' 0 8 = 0x00 → decode w = .ok .final) ∧
    (w.extractLsb' 8 8 = 0x04 → w.extractLsb' 0 8 = 0x00 → decode w = .ok .digest) ∧
    (¬ (w.extractLsb' 8 8 = 0x01 ∧ w.extractLsb' 0 8 = 0x00) → w.extractLsb' 8 8 ≠ 0x02 →
      ¬ (w.extractLsb' 8 8 = 0x03 ∧ w.extractLsb' 0 8 = 0x00) →
      ¬ (w.extractLsb' 8 8 = 0x04 ∧ w.extractLsb' 0 8 = 0x00) → ∃ e, decode w = .error e)) ∧
  ((Finset.range 65536).filter fun n => (decode (BitVec.ofNat 16 n)).toOption = some .init).card = 1 ∧
  ((Finset.range 65536).filter fun n => ((decode (BitVec.ofNat 16 n)).toOption.map Instr.mnemonic) = some "ADD").card = 256 ∧
  ((Finset.range 65536).filter fun n => (decode (BitVec.ofNat 16 n)).toOption = some .final).card = 1 ∧
  ((Finset.range 65536).filter fun n => (decode (BitVec.ofNat 16 n)).toOption = some .digest).card = 1 ∧
  ((Finset.range 65536).filter fun n => (decode (BitVec.ofNat 16 n)).toOption.isNone).card = 65277

/-- Rules R74 and R75, both directions: a word decodes to a command exactly when it is the word of that command. -/
def Obligations.DecodeInvertsEncode : Prop :=
  ∀ (w : CommandWord) (i : Instr), (decode w = .ok i ↔ w = encode i) ∧ i.wellFormed = true

/-- Rule R74: a word selects a row of the opcode map exactly when it decodes to that row's command, and no word selects two
rows. -/
def Obligations.OpcodeMapSelectsDecodedCommand : Prop :=
  ∀ w : CommandWord,
    (∀ r ∈ opcodeMap, r.selects w = true ↔ ∃ i, decode w = .ok i ∧ i.mnemonic = r.mnemonic) ∧
    (∀ r ∈ opcodeMap, ∀ r' ∈ opcodeMap, r.selects w = true → r'.selects w = true → r = r')

/-- Rule R74: some words written out from the table's encoding column. -/
def Obligations.SampleWordsDecode : Prop :=
  decode 0b0000000100000000 = .ok .init ∧
  decode 0b0000001001100001 = .ok (.add 0x61) ∧
  decode 0b0000001011111111 = .ok (.add 0xFF) ∧
  decode 0b0000001100000000 = .ok .final ∧
  decode 0b0000010000000000 = .ok .digest ∧
  decode 0b0000000000000000 = .error (.opcodeUnassigned 0x00) ∧
  decode 0b0000000100000001 = .error (.operandNotZero 0x01 0x01) ∧
  decode 0b1000000100000000 = .error (.opcodeUnassigned 0x81)

/-- Rule R76: the reserved words are the listed ones, and each is answered ILLEGAL_CMD with no other state changed. -/
def Obligations.ReservedWordAnsweredIllegal : Prop :=
  ∀ (w : CommandWord) (s : State),
    ((∃ e, decode w = .error e) ↔
      w.extractLsb' 8 8 = 0x00 ∨ 0x05 ≤ (w.extractLsb' 8 8).toNat ∨ (0x0101 ≤ w.toNat ∧ w.toNat ≤ 0x01FF) ∨
        (0x0301 ≤ w.toNat ∧ w.toNat ≤ 0x03FF) ∨ (0x0401 ≤ w.toNat ∧ w.toNat ≤ 0x04FF)) ∧
    ((∃ e, decode w = .error e) → transact w s = .next { s with resp := some .illegalCmd })

/-- Rule R78: every word the host presents, command or reserved, gets one response, whose data is present exactly when the
command is DIGEST and the code is OK, and the codes are those of the table. -/
def Obligations.DataOnlyWithDigestOk : Prop :=
  (∀ (w : CommandWord) (s : State), ∃ t r, transact w s = .next t ∧ t.resp = some r ∧
    (r.data.isSome = true ↔ decode w = .ok .digest ∧ r.code = 0b00)) ∧
  (∀ d, (Response.ok d).code = 0b00) ∧ Response.invalidState.code = 0b01 ∧ Response.lengthOverflow.code = 0b10 ∧
  Response.illegalCmd.code = 0b11

/-- Rule R79: byte `d[j]` of the data is `dout[511 - 8j : 504 - 8j]`, a response without data carries zeros, and for a DIGEST
`dout` is the eight words of H in order. -/
def Obligations.DigestBusLayout : Prop :=
  (∀ (d : Digest) (j : Nat) (hj : j < 64), (Response.ok (some d)).dout.extractLsb' (504 - 8 * j) 8 = d[j]) ∧
  (∀ r : Response, r.data = none → r.dout = 0) ∧
  (∀ (h : Words) (i : Fin 8), (Response.ok (some (ser h))).dout.extractLsb' (448 - 64 * i.val) 64 = h.get i)

/-- Rule R186: the bytes of a message may be split between two ADDS at any point. -/
def Obligations.AnySplitGivesSameHash : Prop :=
  ∀ (m : List Byte) (k : Nat) (s : State),
    converse ([encode .init] ++ addsWords (m.take k) ++ addsWords (m.drop k) ++ [encode .final, encode .digest]) s =
      converse (hashWords m) s

/-- Rules R83 and R84: a script line HASH or ADDS with a quoted text of ASCII characters stands for the bytes of its characters, and
assembles to the words of the expansions. Two points are the model's choices (log entry 13): a semicolon inside the text is a
character of it, where rule R82 says that a semicolon opens a comment; and the text holds no double quote. -/
def Obligations.ScriptLinesStandForBytes : Prop :=
  ∀ text : List Char, (∀ c ∈ text, c.toNat ≤ 0x7F ∧ c ≠ textQuote) →
    parseLine (['H', 'A', 'S', 'H', ' ', textQuote] ++ text ++ [textQuote]) =
      some [.hash (text.map fun c => BitVec.ofNat 8 c.toNat)] ∧
    parseLine (['A', 'D', 'D', 'S', ' ', textQuote] ++ text ++ [textQuote]) =
      some [.adds (text.map fun c => BitVec.ofNat 8 c.toNat)] ∧
    assemble [['H', 'A', 'S', 'H', ' ', textQuote] ++ text ++ [textQuote]] =
      some ([encode .init] ++ text.map (fun c => encode (.add (BitVec.ofNat 8 c.toNat))) ++
        [encode .final, encode .digest]) ∧
    assemble [['A', 'D', 'D', 'S', ' ', textQuote] ++ text ++ [textQuote]] =
      some (text.map fun c => encode (.add (BitVec.ofNat 8 c.toNat)))

/-- Rules R83 and R84: a script line ADDS or HASH with bytes written `0xNN`, the high digit first, stands for those bytes in order,
and assembles to one ADD for each, for HASH with INIT before and FINAL and DIGEST behind. That the line of no bytes is the bare word
is the model's choice (log entry 13). -/
def Obligations.ByteLinesStandForBytes : Prop :=
  ∀ m : List Byte,
    parseLine (['A', 'D', 'D', 'S'] ++ (m.map fun b => ' ' :: hexText b).flatten) = some [.adds m] ∧
    parseLine (['H', 'A', 'S', 'H'] ++ (m.map fun b => ' ' :: hexText b).flatten) = some [.hash m] ∧
    assemble [['A', 'D', 'D', 'S'] ++ (m.map fun b => ' ' :: hexText b).flatten] =
      some (m.map fun b => encode (.add b)) ∧
    assemble [['H', 'A', 'S', 'H'] ++ (m.map fun b => ' ' :: hexText b).flatten] =
      some ([encode .init] ++ m.map (fun b => encode (.add b)) ++ [encode .final, encode .digest])

/-- Rule R82: the lines of one command. `ADD 0xNN` is ADD of the byte whose value is 16 times the first digit and the second, `ADD 'c'`
ADD of the code of the printable character c, `0xNNNN` the word with those two bytes, and the mnemonics alone the other three
commands; a comment may follow each. Three points are the model's choices (log entry 13): a digit above 9 may be a lower-case letter;
c may be the single quote or the semicolon; spaces may stand between the line and its comment. -/
def Obligations.CommandLinesStandForWords : Prop :=
  ∀ comment : List Char, ∀ tail ∈ [[], ' ' :: ';' :: comment, ';' :: comment],
    (∀ h l : Nat, h < 16 → l < 16 →
      ∀ x ∈ [hexDigits.getD h '0', (hexDigits.getD h '0').toLower],
      ∀ y ∈ [hexDigits.getD l '0', (hexDigits.getD l '0').toLower],
        parseLine (['A', 'D', 'D', ' ', '0', 'x', x, y] ++ tail) = some [.command (.add (BitVec.ofNat 8 (16 * h + l)))] ∧
        assemble [['A', 'D', 'D', ' ', '0', 'x', x, y] ++ tail] = some [encode (.add (BitVec.ofNat 8 (16 * h + l)))]) ∧
    (∀ c : Char, 0x20 ≤ c.toNat → c.toNat ≤ 0x7E →
      parseLine (['A', 'D', 'D', ' ', charQuote, c, charQuote] ++ tail) =
        some [.command (.add (BitVec.ofNat 8 c.toNat))]) ∧
    (∀ hi lo : Byte, parseLine (hexText hi ++ (hexText lo).drop 2 ++ tail) = some [.raw (hi ++ lo)] ∧
      assemble [hexText hi ++ (hexText lo).drop 2 ++ tail] = some [hi ++ lo]) ∧
    parseLine (['I', 'N', 'I', 'T'] ++ tail) = some [.command .init] ∧
    parseLine (['F', 'I', 'N', 'A', 'L'] ++ tail) = some [.command .final] ∧
    parseLine (['D', 'I', 'G', 'E', 'S', 'T'] ++ tail) = some [.command .digest]

/-! ### The step (rules R17, R207, R220) -/

/-- Rule R17: a presented word that decodes is executed, whole, in one step, with the host's queue moved past it. -/
def Obligations.StepRunsDecodedCommand : Prop :=
  ∀ (s : State) (w : CommandWord) (rest : List HostMove) (i : Instr),
    s.host = .command w :: rest → decode w = .ok i → step s = exec i { s with host := rest }

/-- Rules R81 and R194, with the model's own queue of host moves (log entry 2) and idle step (log entry 6): no step stops the
machine, and CORE without a move keeps all its state (rule R207). -/
def Obligations.StepAlwaysGoesOn : Prop :=
  ∀ s : State, SafeStep s ∧ (s.host = [] → step s = .next s)

/-- Rules R220 and R223: reset, taken in any state, leaves every piece of state at its reset value. The empty response port is
the model's choice (log entry 3), and the queue of the host's moves is the model's own (log entry 2). -/
def Obligations.ResetMoveGivesResetValues : Prop :=
  ∀ (s : State) (rest : List HostMove), s.host = .reset :: rest →
    ∃ t, step s = .next t ∧ TablesBuilt t ∧ (∀ i, t.h.get i = 0) ∧ (∀ j, t.bufRead j = 0x00) ∧ t.pos = 0 ∧ t.len = 0 ∧
      t.st = .empty ∧ t.err = 0b00 ∧ t.status = 0x00 ∧ t.resp = none ∧ t.host = rest

/-- Rule R38: the reset state. -/
def Obligations.ResetValues : Prop :=
  (∀ x : Byte, State.reset.tables.S x = sboxBytes.getD x.toNat 0) ∧
  (∀ (t : Fin 8) (x : Byte), State.reset.tables.C t x = ror64 (crow0 (State.reset.tables.S x)) (8 * t.val)) ∧
  (∀ r : Fin 10, State.reset.tables.RC r = rcgen State.reset.tables.C r.val) ∧
  (∀ i, State.reset.h.get i = 0) ∧ (∀ j, State.reset.bufRead j = 0x00) ∧ State.reset.pos = 0 ∧ State.reset.len = 0 ∧
  State.reset.st = .empty ∧ State.reset.err = 0b00 ∧ State.reset.status = 0x00

/-! ### The tables (40_constant_generator.md) -/

/-- Rule R20: checks of the substitution table: a permutation of all bytes, with the printed corner values. -/
def Obligations.SubstitutionTableIsPermutation : Prop :=
  Function.Bijective Tables.built.S ∧ Tables.built.S 0x00 = 0x18 ∧ Tables.built.S 0x81 = 0x00 ∧
    Tables.built.S 0xFF = 0x86 ∧ sboxBytes.foldl (· ^^^ ·) 0 = 0x00

/-- Rule R100: XTIME in the nine bits of its pseudocode, then as shift and conditional exclusive or; a bijection, with its
corner cases and its example. -/
def Obligations.DoublingIsShiftAndReduce : Prop :=
  (∀ v : Byte, (xtime v).setWidth 9 =
    if (v.setWidth 9 <<< 1 : BitVec 9).getLsbD 8 then v.setWidth 9 <<< 1 ^^^ 0x11D else v.setWidth 9 <<< 1) ∧
  (∀ v : Byte, xtime v = v <<< 1 ^^^ (if v.getLsbD 7 then 0x1D else 0x00)) ∧ Function.Bijective xtime ∧
    xtime 0x00 = 0x00 ∧ xtime 0x7F = 0xFE ∧ xtime 0x80 = 0x1D ∧ xtime 0xFF = 0xE3 ∧ xtime 0x8E = 0x01 ∧ xtime 0xC6 = 0x91

/-- Rule R104, and with it rules R102 and R103: every byte of C is a multiple of S[x] in GF(2^8). -/
def Obligations.DiffusionTableClosedForm : Prop :=
  ∀ (t k : Fin 8) (x : Byte),
    byteOf (Tables.built.C t x) k = byteOf (Tables.built.C 0 x) (k - t) ∧
    byteOf (Tables.built.C t x) k = gfTimes (rowMultiplier (k - t)) (Tables.built.S x) ∧
    byteOf (Tables.built.C t x) t = Tables.built.S x ∧
    Tables.built.C t x = ror64 (Tables.built.C 0 x) (8 * t.val)

/-- Rules R105, R106 and R109: the masked sum over C is eight substitution values in a row, and the ten values. -/
def Obligations.RoundConstantsFromSubstitution : Prop :=
  (∀ (r : Fin 10) (t : Fin 8),
    byteOf (Tables.built.RC r) t = Tables.built.S (BitVec.ofNat 8 (8 * r.val + t.val))) ∧
  (List.finRange 10).map Tables.built.RC =
    [0x1823C6E887B8014F, 0x36A6D2F5796F9152, 0x60BC9B8EA30C7B35, 0x1DE0D7C22E4BFE57, 0x157737E59FF04ADA,
      0x58C9290AB1A06B85, 0xBD5D10F4CB3E0567, 0xE427418BA77D95D8, 0xFBEE7C66DD17479E, 0xCA2DBF07AD5A8333]

/-- Rule R24: reset gives the tables what GEN makes of S, from any state; no command writes a table; and so they keep those
values through every step. -/
def Obligations.TablesNeverChange : Prop :=
  (∀ (s t : State) (rest : List HostMove), s.host = .reset :: rest → step s = .next t → TablesBuilt t) ∧
  (∀ (i : Instr) (s t : State), exec i s = .next t → t.tables = s.tables) ∧
  (∀ s t : State, step s = .next t → TablesBuilt s → TablesBuilt t)

/-! ### The compression function (41_compression.md) -/

/-- Rule R127: LAYER seen byte by byte. -/
def Obligations.LayerByteByByte : Prop :=
  ∀ (a : Words) (i k : Fin 8),
    byteOf ((layer Tables.built a).get i) k =
      (List.finRange 8).foldl
        (fun v t => v ^^^ gfTimes (rowMultiplier (k - t)) (Tables.built.S (byteOf (a.get (i - t)) t))) 0x00

/-- Rule R127: each of the 64 input bytes reaches all eight bytes of exactly one output word. Two inputs that differ in byte
`t` of word `j` only give outputs that differ in every byte of word `j + t` and in no other word. -/
def Obligations.LayerFullDiffusion : Prop :=
  ∀ (a b : Words) (j t : Fin 8),
    (∀ j' t', (j' ≠ j ∨ t' ≠ t) → byteOf (a.get j') t' = byteOf (b.get j') t') →
    byteOf (a.get j) t ≠ byteOf (b.get j) t →
    (∀ i, i ≠ j + t → (layer Tables.built a).get i = (layer Tables.built b).get i) ∧
    (∀ k, byteOf ((layer Tables.built a).get (j + t)) k ≠ byteOf ((layer Tables.built b).get (j + t)) k)

/-- Rules R121 to R124: one round, word by word: the round constant goes into word 0 of the new key only, and the new key is
what the state step exclusive-ors in. -/
def Obligations.RoundUsesNewKey : Prop :=
  ∀ (T : Tables) (p : RoundPair) (r : Fin 10) (i : Fin 8),
    (∀ a : Words, (layer T a).get i =
      T.C 0 (byteOf (a.get i) 0) ^^^ T.C 1 (byteOf (a.get (i - 1)) 1) ^^^ T.C 2 (byteOf (a.get (i - 2)) 2) ^^^
      T.C 3 (byteOf (a.get (i - 3)) 3) ^^^ T.C 4 (byteOf (a.get (i - 4)) 4) ^^^ T.C 5 (byteOf (a.get (i - 5)) 5) ^^^
      T.C 6 (byteOf (a.get (i - 6)) 6) ^^^ T.C 7 (byteOf (a.get (i - 7)) 7)) ∧
    (Machine.round T p r).key.get i = (layer T p.key).get i ^^^ (if i = 0 then T.RC r else 0) ∧
    (Machine.round T p r).state.get i = (layer T p.state).get i ^^^ (Machine.round T p r).key.get i

/-- Rule R125: whatever chain of ten rounds starts from key H and state M xor H, COMPRESS is H xor its last state xor M. -/
def Obligations.CompressIsTenRoundsAndFeedForward : Prop :=
  ∀ (T : Tables) (h m : Words) (p : Nat → RoundPair),
    (p 0).key = h → (∀ i, (p 0).state.get i = m.get i ^^^ h.get i) →
    (∀ r : Fin 10, p (r.val + 1) = Machine.round T (p r.val) r) →
    ∀ i, (compress T h m).get i = h.get i ^^^ (p 10).state.get i ^^^ m.get i

/-! ### Padding and block assembly (42_padding_block_assembly.md) -/

/-- Rule R140: PACK, byte by byte and as integers. -/
def Obligations.PackIsBigEndian : Prop :=
  ∀ (m : Memory) (i : Fin 8),
    (∀ k : Fin 8, byteOf ((pack m).get i) k = m.read (8 * i.val + k.val)) ∧
    ((pack m).get i).toNat = ∑ k : Fin 8, (m.read (8 * i.val + k.val)).toNat * 2 ^ (56 - 8 * k.val)

/-- Rule R148: SER byte by byte, and SER and PACK undo each other. -/
def Obligations.SerInvertsPack : Prop :=
  (∀ (h : Words) (i k : Fin 8), (ser h)[8 * i.val + k.val] = byteOf (h.get i) k) ∧
  (∀ h : Words, packBytes (fun j => (ser h).toList.getD j 0x00) = h) ∧
  (∀ (b : Nat → Byte) (j : Nat) (hj : j < 64), (ser (packBytes b))[j] = b j)

/-- Rule R145: LENENC writes LEN into BUF[32 .. 63], most significant byte first, and nothing else; in message words that is M[4]
to M[7]. The premise is the canonical form of the model's BUF, which every step keeps. -/
def Obligations.LengthFieldIsBigEndian : Prop :=
  ∀ s : State, s.buf.wf = true →
    (∀ k, k < 32 → (lenenc s).bufRead (32 + k) = s.len.extractLsb' (248 - 8 * k) 8) ∧
    (∀ j, j < 32 → (lenenc s).bufRead j = s.bufRead j) ∧
    lenenc s = { s with buf := (lenenc s).buf } ∧
    (pack (lenenc s).buf).get 4 = s.len.extractLsb' 192 64 ∧
    (pack (lenenc s).buf).get 5 = s.len.extractLsb' 128 64 ∧
    (pack (lenenc s).buf).get 6 = s.len.extractLsb' 64 64 ∧
    (pack (lenenc s).buf).get 7 = s.len.extractLsb' 0 64

/-- Rule R147: the shape of P(m): whole blocks, z the least number of zeros that makes them so, the length field last; and
the number of blocks. -/
def Obligations.PaddedMessageShape : Prop :=
  ∀ m : List Byte,
    (padfn m).length = 64 * blockCount m.length ∧
    blockCount m.length = m.length / 64 + (if m.length % 64 ≤ 31 then 1 else 2) ∧
    (m.length + 1 + padZeros m.length + 32) % 64 = 0 ∧
    (∀ z, (m.length + 1 + z + 32) % 64 = 0 → padZeros m.length ≤ z) ∧
    (∀ j, j < m.length → (padfn m).getD j 0x00 = m.getD j 0x00) ∧
    (padfn m).getD m.length 0x00 = 0x80 ∧
    (∀ j, m.length < j → j + 32 < 64 * blockCount m.length → (padfn m).getD j 0x00 = 0x00) ∧
    (∀ k, k < 32 → (padfn m).getD (64 * blockCount m.length - 32 + k) 0x00 =
      (BitVec.ofNat 256 (8 * m.length)).extractLsb' (248 - 8 * k) 8)

/-! ### The commands (43_hash_driver.md) -/

/-- Rule R162: INIT, from every state. The frame: the tables are untouched, and the host's queue, the model's own, is too. -/
def Obligations.InitStartsComputation : Prop :=
  ∀ s : State, ∃ t, exec .init s = .next t ∧ (∀ i, t.h.get i = 0) ∧ (∀ j, t.bufRead j = 0x00) ∧ t.pos = 0 ∧ t.len = 0 ∧
    t.err = 0b00 ∧ t.st = .accumulating ∧ t.resp = some (.ok none) ∧ t.tables = s.tables ∧ t.host = s.host

/-- Rule R222: reset and INIT differ in ST only (and in the response, which INIT gives and reset does not), reset then INIT
reaches what INIT reaches from anywhere, and no command reaches Empty. -/
def Obligations.InitIsResetIntoAccumulating : Prop :=
  (∀ s t : State, TablesBuilt s → exec .init s = .next t →
    { t with st := .empty, resp := none } = { State.reset with host := s.host }) ∧
  (∀ s : State, TablesBuilt s → exec .init { State.reset with host := s.host } = exec .init s) ∧
  (∀ (i : Instr) (s t : State), exec i s = .next t → t.st = .empty → s.st = .empty)

/-- Rules R163 and R165: an accepted ADD, in a block it does not fill and in the block it fills. -/
def Obligations.AddTakesByte : Prop :=
  ∀ (b : Byte) (s : State), s.st = .accumulating → s.err = 0b00 → s.len.toNat + 8 < 2 ^ 256 →
    (s.pos ≠ 63 → exec (.add b) s = .next
      { s with buf := s.buf.write s.pos.toNat b, pos := s.pos + 1, len := s.len + 8, resp := some (.ok none) }) ∧
    (s.pos = 63 → exec (.add b) s = .next
      { s with
        h := compress s.tables s.h (pack (s.buf.write 63 b))
        buf := Memory.zero
        pos := 0
        len := s.len + 8
        resp := some (.ok none) })

/-- Rules R163 and R141, as a frame: an accepted ADD that does not fill the block stores its byte at BUF[POS] and changes no
other byte, and no register but POS and LEN. The premise on BUF is its canonical form, which every step keeps. -/
def Obligations.AddStoresOneByte : Prop :=
  ∀ (b : Byte) (s : State), s.buf.wf = true → s.st = .accumulating → s.err = 0b00 → s.len.toNat + 8 < 2 ^ 256 →
    s.pos ≠ 63 → ∃ t, exec (.add b) s = .next t ∧ t.bufRead s.pos.toNat = b ∧
      (∀ a, a ≠ s.pos.toNat → t.bufRead a = s.bufRead a) ∧ t.pos.toNat = s.pos.toNat + 1 ∧
      t.len.toNat = s.len.toNat + 8 ∧ t.h = s.h ∧ t.st = s.st ∧ t.err = s.err ∧ t.tables = s.tables ∧ t.host = s.host ∧
      t.resp = some (.ok none)

/-- Rule R164: ADD refused for its state. -/
def Obligations.AddRefusedForState : Prop :=
  ∀ (b : Byte) (s : State), (s.st ≠ .accumulating ∨ s.err ≠ 0b00) →
    exec (.add b) s = .next { s with err := s.err ||| 0b01, resp := some .invalidState }

/-- Rule R166: ADD refused for length, exactly when LEN + 8 reaches 2^256, and accepted otherwise. For a LEN that is a multiple
of 8 that is the one value 2^256 - 8; at 2^256 - 16 ADD is accepted and leaves that value. The longest message a state can
have absorbed, the one after which ADD is refused, has 2^253 - 1 bytes. In a state where ADD is not allowed the response is
INVALID_STATE whatever LEN is. -/
def Obligations.AddRefusedForLength : Prop :=
  (∀ (b : Byte) (s : State) (l : BitVec 256), (s.st ≠ .accumulating ∨ s.err ≠ 0b00) →
    ∃ t, exec (.add b) { s with len := l } = .next t ∧ t.resp = some .invalidState) ∧
  (∀ (s : State) (m : List Byte), Absorbed s m →
    m.length ≤ 2 ^ 253 - 1 ∧ (2 ^ 256 ≤ s.len.toNat + 8 ↔ m.length = 2 ^ 253 - 1)) ∧
  ∀ (b : Byte) (s : State), s.st = .accumulating → s.err = 0b00 →
    (2 ^ 256 ≤ s.len.toNat + 8 → exec (.add b) s = .next { s with err := 0b10, resp := some .lengthOverflow }) ∧
    (s.len.toNat + 8 < 2 ^ 256 →
      ∃ t, exec (.add b) s = .next t ∧ t.resp = some (.ok none) ∧ t.err = 0b00 ∧ t.len.toNat = s.len.toNat + 8) ∧
    (s.len.toNat % 8 = 0 → (2 ^ 256 ≤ s.len.toNat + 8 ↔ s.len.toNat = 2 ^ 256 - 8)) ∧
    (s.len.toNat = 2 ^ 256 - 16 →
      ∃ t, exec (.add b) s = .next t ∧ t.len.toNat = 2 ^ 256 - 8 ∧ t.resp = some (.ok none))

/-- Rules R146 and R170: an accepted FINAL. With POS at most 31 one block is compressed: the message bytes, 0x80, zeros, the
length. With POS at least 32 two are: the bytes, 0x80 and zeros, then zeros and the length. It is irreversible: only INIT
leaves Finalized, and it zeroes H. The premise on BUF is its canonical form, which every step keeps. -/
def Obligations.FinalPadsAndFinishes : Prop :=
  (∀ (i : Instr) (s t : State), exec i s = .next t → s.st = .finalized → t.st ≠ .finalized →
    i = .init ∧ ∀ k, t.h.get k = 0) ∧
  ∀ s : State, s.buf.wf = true → s.st = .accumulating → s.err = 0b00 →
    (s.pos.toNat ≤ 31 → exec .final s = .next
      { s with
        h := compress s.tables s.h (packBytes fun j =>
          if j < s.pos.toNat then s.bufRead j
          else if j = s.pos.toNat then 0x80
          else if j < 32 then 0x00
          else s.len.extractLsb' (8 * (63 - j)) 8)
        buf := Memory.zero
        pos := 0
        len := 0
        st := .finalized
        resp := some (.ok none) }) ∧
    (32 ≤ s.pos.toNat → exec .final s = .next
      { s with
        h := compress s.tables
          (compress s.tables s.h (packBytes fun j =>
            if j < s.pos.toNat then s.bufRead j else if j = s.pos.toNat then 0x80 else 0x00))
          (packBytes fun j => if j < 32 then 0x00 else s.len.extractLsb' (8 * (63 - j)) 8)
        buf := Memory.zero
        pos := 0
        len := 0
        st := .finalized
        resp := some (.ok none) })

/-- Rule R171: FINAL refused. -/
def Obligations.FinalRefused : Prop :=
  ∀ s : State, (s.st ≠ .accumulating ∨ s.err ≠ 0b00) →
    exec .final s = .next { s with err := s.err ||| 0b01, resp := some .invalidState }

/-- Rule R176, with rule R148: an accepted DIGEST answers the 64 bytes of H and changes no state but the response. -/
def Obligations.DigestReadsChainingValue : Prop :=
  ∀ s : State, s.st = .finalized → s.err = 0b00 →
    ∃ d : Digest, exec .digest s = .next { s with resp := some (.ok (some d)) } ∧
      ∀ i k : Fin 8, d[8 * i.val + k.val] = byteOf (s.h.get i) k

/-- Rule R177: DIGEST refused. -/
def Obligations.DigestRefused : Prop :=
  ∀ s : State, (s.st ≠ .finalized ∨ s.err ≠ 0b00) →
    exec .digest s = .next { s with err := s.err ||| 0b01, resp := some .invalidState }

/-- Rule R161: the transition table, cell by cell: the response, and what becomes of ST and ERR. -/
def Obligations.TransitionTable : Prop :=
  ∀ s : State,
    (∃ t, exec .init s = .next t ∧ t.resp = some (.ok none) ∧ t.st = .accumulating ∧ t.err = 0b00) ∧
    (∀ b, ∃ t, exec (.add b) s = .next t ∧ t.st = s.st ∧
      (if s.st = .accumulating ∧ s.err = 0b00 then
        if s.len.toNat + 8 < 2 ^ 256 then t.resp = some (.ok none) ∧ t.err = 0b00
        else t.resp = some .lengthOverflow ∧ t.err = 0b10
      else t.resp = some .invalidState ∧ t.err = s.err ||| 0b01)) ∧
    (∃ t, exec .final s = .next t ∧
      (if s.st = .accumulating ∧ s.err = 0b00 then t.resp = some (.ok none) ∧ t.st = .finalized ∧ t.err = 0b00
      else t.resp = some .invalidState ∧ t.st = s.st ∧ t.err = s.err ||| 0b01)) ∧
    (∃ t, exec .digest s = .next t ∧ t.st = s.st ∧
      (if s.st = .finalized ∧ s.err = 0b00 then t.resp = some (.ok (some (ser s.h))) ∧ t.err = 0b00
      else t.resp = some .invalidState ∧ t.err = s.err ||| 0b01)) ∧
    (∀ w e, decode w = .error e →
      ∃ t, transact w s = .next t ∧ t.resp = some .illegalCmd ∧ t.st = s.st ∧ t.err = s.err)

/-- Rule R25 and the access matrix of rule R39: H is written by INIT, by an ADD that fills the block, and by FINAL, and by no
other command. -/
def Obligations.ChainingValueWrittenOnlyBy : Prop :=
  ∀ (i : Instr) (s t : State), exec i s = .next t → t.h ≠ s.h →
    i = .init ∨ (∃ b, i = .add b ∧ s.pos = 63) ∨ i = .final

/-- Rule R167: what an accepted ADD keeps true: a state that has absorbed `m` has absorbed `m` and the byte afterwards. -/
def Obligations.AddAbsorbsByte : Prop :=
  ∀ (b : Byte) (s : State) (m : List Byte), s.buf.wf = true → Absorbed s m → s.st = .accumulating → s.err = 0b00 →
    8 * (m.length + 1) < 2 ^ 256 →
    ∃ t, exec (.add b) s = .next t ∧ Absorbed t (m ++ [b]) ∧ t.st = .accumulating ∧ t.err = 0b00 ∧ t.resp = some (.ok none)

/-- Rule R172, its last step: FINAL in a state that has absorbed `m` leaves H such that SER(H) is Whirlpool(m). -/
def Obligations.FinalGivesWhirlpool : Prop :=
  ∀ (s : State) (m : List Byte), s.buf.wf = true → Absorbed s m → s.st = .accumulating → s.err = 0b00 →
    ∃ t, exec .final s = .next t ∧ ser t.h = whirlpool s.tables m ∧ t.st = .finalized ∧ t.err = 0b00 ∧
      t.resp = some (.ok none)

/-- Rule R180: ADDS gives one response a byte. Where one is refused, those before it have taken effect, exactly as without it,
and that one and all after it are refused and change nothing but ERR and the response. ADDS of nothing changes nothing. -/
def Obligations.AddsTakesEffectByteByByte : Prop :=
  ∀ (m : List Byte) (s : State), ∃ rs t, converse (addsWords m) s = some (rs, t) ∧ rs.length = m.length ∧
    (m = [] → t = s) ∧
    ∀ k, k < m.length → rs.getD k (.ok none) ≠ .ok none →
      (∀ j, k ≤ j → j < m.length → rs.getD j (.ok none) ≠ .ok none) ∧
      ∃ u, converse (addsWords (m.take k)) s = some (rs.take k, u) ∧ t = { u with err := t.err, resp := t.resp }

/-- Rule R181: HASH of any message of fewer than 2^253 bytes, from any state of CORE, answers OK to every command and returns
Whirlpool of the message, in a live Finalized state. That the tables are those of reset is what rule R24 says of every state of
CORE, and the obligation TablesNeverChange. -/
def Obligations.HashReturnsWhirlpool : Prop :=
  ∀ (s : State) (m : List Byte), TablesBuilt s → m.length < 2 ^ 253 →
    ∃ t, converse (hashWords m) s =
        some (List.replicate (m.length + 2) (.ok none) ++ [.ok (some (whirlpool Tables.built m))], t) ∧
      t.st = .finalized ∧ t.err = 0b00

/-- Rule R178: in a live Finalized state any number of DIGESTs return the same 64 bytes and change nothing else. -/
def Obligations.DigestMayBeRepeated : Prop :=
  ∀ (s : State) (n : Nat), s.st = .finalized → s.err = 0b00 →
    ∃ t, converse (List.replicate n (encode .digest)) s = some (List.replicate n (.ok (some (ser s.h))), t) ∧
      t = { s with resp := t.resp }

/-- Rule R182: the responses of a sequence that begins with INIT, and the state it leaves, are a function of the sequence
alone. The queue of the host's later moves, the model's own, is set aside. -/
def Obligations.ResponsesDependOnCommandsOnly : Prop :=
  ∀ (s s' : State) (ws : List CommandWord), TablesBuilt s → TablesBuilt s' →
    ∃ rs t t', converse (encode .init :: ws) s = some (rs, t) ∧ converse (encode .init :: ws) s' = some (rs, t') ∧
      { t with host := [] } = { t' with host := [] }

/-- Rule R185: hashing `a`, then `b`, then `a` again: the second result is that of `b` from reset, the third that of the
first. -/
def Obligations.HashesDoNotInterfere : Prop :=
  ∀ (s : State) (a b : List Byte), TablesBuilt s → a.length < 2 ^ 253 → b.length < 2 ^ 253 →
    ∃ ra rb t u, converse (hashWords a ++ hashWords b ++ hashWords a) s = some (ra ++ rb ++ ra, t) ∧
      converse (hashWords b) State.reset = some (rb, u) ∧ ra.length = a.length + 3

/-- Rule R187: DIGEST yields a result exactly when the computation has ended well. -/
def Obligations.ResultExactlyWhenEndedWell : Prop :=
  ∀ s t : State, exec .digest s = .next t →
    ((∃ d, t.resp = some (.ok (some d))) ↔ s.endedWell = true) ∧ (s.endedBadly = true ↔ s.err ≠ 0b00) ∧
    (s.inProgress = true ↔ s.st = .accumulating ∧ s.err = 0b00)

/-! ### Errors (60_exceptions.md) -/

/-- Rules R191 and R192: which command raises INVALID_STATE and LENGTH_OVERFLOW, exactly. -/
def Obligations.ErrorCausesExact : Prop :=
  ∀ (i : Instr) (s t : State), exec i s = .next t →
    (t.resp = some .invalidState ↔
      ((∃ b, i = .add b) ∧ (s.st ≠ .accumulating ∨ s.err ≠ 0b00)) ∨
      (i = .final ∧ (s.st ≠ .accumulating ∨ s.err ≠ 0b00)) ∨
      (i = .digest ∧ (s.st ≠ .finalized ∨ s.err ≠ 0b00))) ∧
    (t.resp = some .lengthOverflow ↔
      (∃ b, i = .add b) ∧ s.st = .accumulating ∧ s.err = 0b00 ∧ 2 ^ 256 ≤ s.len.toNat + 8) ∧
    t.resp ≠ some .illegalCmd

/-- Rule R198: a refused command has no partial effect: it sets its flag, gives its response and changes nothing else. -/
def Obligations.RefusalsArePrecise : Prop :=
  ∀ (i : Instr) (s t : State), exec i s = .next t →
    (t.resp = some .invalidState → t = { s with err := s.err ||| 0b01, resp := some .invalidState }) ∧
    (t.resp = some .lengthOverflow → t = { s with err := s.err ||| 0b10, resp := some .lengthOverflow })

/-- Rule R199: in a dead computation every ADD, FINAL and DIGEST is answered INVALID_STATE and sets IS, however many are sent,
and nothing else changes but the response; and (rule R200) the one command that leaves a dead computation is INIT, which does
not keep H. -/
def Obligations.DeadUntilInit : Prop :=
  (∀ (ws : List CommandWord) (s : State), s.err ≠ 0b00 → (∀ w ∈ ws, decode w ≠ .ok .init) →
    ∃ t, converse ws s =
        some (ws.map fun w => if (decode w).toOption.isSome then .invalidState else .illegalCmd, t) ∧
      t = { s with
        err := if ws.any fun w => (decode w).toOption.isSome then s.err ||| 0b01 else s.err
        resp := t.resp }) ∧
  (∀ (i : Instr) (s t : State), exec i s = .next t → s.err ≠ 0b00 → t.err = 0b00 → i = .init ∧ ∀ k, t.h.get k = 0)

/-- Rule R201: both flags are set together only by an INVALID_STATE after a LENGTH_OVERFLOW. -/
def Obligations.BothFlagsOnlyAfterOverflow : Prop :=
  ∀ s t : State, step s = .next t → t.err = 0b11 → s.err ≠ 0b11 → s.err = 0b10 ∧ t.resp = some .invalidState

/-! ### State, views and invariants (10_state.md, 20_memory.md) -/

/-- Rule R31: STATUS bit by bit, with the codes of rule R29, and its reset value. -/
def Obligations.StatusView : Prop :=
  (∀ s : State, s.status.extractLsb' 0 2 = s.st.code ∧ s.status.getLsbD 2 = s.err.getLsbD 0 ∧
    s.status.getLsbD 3 = s.err.getLsbD 1 ∧ s.status.extractLsb' 4 4 = 0b0000) ∧
  DriverState.empty.code = 0b00 ∧ DriverState.accumulating.code = 0b01 ∧ DriverState.finalized.code = 0b10 ∧
  State.reset.status = 0x00

/-- Rule R57: what the host sees of a command other than an accepted DIGEST does not depend on H, BUF, POS or LEN, but for
whether LEN is at its limit. -/
def Obligations.RegistersDoNotLeak : Prop :=
  ∀ (i : Instr) (s s' t t' : State), s.st = s'.st → s.err = s'.err →
    (s.len.toNat + 8 < 2 ^ 256 ↔ s'.len.toNat + 8 < 2 ^ 256) → exec i s = .next t → exec i s' = .next t' →
    t.status = t'.status ∧ t.resp.map Response.code = t'.resp.map Response.code ∧ (i ≠ .digest → t.resp = t'.resp)

/-- Rule R64, of instances held as the model chooses to (log entry 14: a list of whole states, one of them stepped at a time): a step
of instance k is CORE's step of that instance's own state and leaves every other instance as it is; after any interleaving each
instance is in the state, its response with it, that as many steps of it alone lead to; and the steps of two instances commute. -/
def Obligations.InstancesCommute : Prop :=
  (∀ (sys : Sys2Proof.Machine.System) (k j : Nat), j ≠ k → (sys.stepAt k)[j]? = sys[j]?) ∧
  (∀ (sys : Sys2Proof.Machine.System) (k : Nat) (s : State), sys[k]? = some s →
    ∃ t, step s = .next t ∧ (sys.stepAt k)[k]? = some t) ∧
  (∀ (sys : Sys2Proof.Machine.System) (schedule : List Nat) (j : Nat) (s : State), sys[j]? = some s →
    ∃ t, Sys2Proof.core.run (schedule.count j) s = .next t ∧
      (schedule.foldl Sys2Proof.Machine.System.stepAt sys)[j]? = some t) ∧
  (∀ (sys : Sys2Proof.Machine.System) (schedule : List Nat),
    (schedule.foldl Sys2Proof.Machine.System.stepAt sys).length = sys.length) ∧
  (∀ (sys : Sys2Proof.Machine.System) (j k : Nat), j ≠ k → (sys.stepAt j).stepAt k = (sys.stepAt k).stepAt j)

/-- The canonical form of the model's BUF (log entry 4): every step keeps it. -/
def Obligations.BufferStaysCanonical : Prop :=
  ∀ s t : State, s.buf.wf = true → step s = .next t → t.buf.wf = true

/-- Rules R36 (its clauses 2 to 4 and 6 to 8 for the registers and BUF) and R149: every step keeps the bounds of the registers
and the buffer invariant. -/
def Obligations.BufferInvariantKept : Prop :=
  ∀ s t : State, BufferInv s → step s = .next t → BufferInv t

/-- Rule R36 whole: every step keeps the invariant, with the absorbed message as its witness. -/
def Obligations.MessageInvariantKept : Prop :=
  ∀ s t : State, Inv s → step s = .next t → Inv t

/-- Both invariants hold at reset. -/
def Obligations.InvariantsAtReset : Prop :=
  BufferInv State.reset ∧ Inv State.reset ∧ TablesBuilt State.reset ∧ State.reset.buf.wf = true
end

