-- ==== Sys2Proof/Laws/Assembler.lean ====
section
/-! SUPPORT. What the reader of scripts makes of the pieces of a line: a comment, a byte in digits, a list of bytes, a quoted text. -/

namespace Sys2Proof.Machine

theorem onlyComment_comment (cs : List Char) : onlyComment (';' :: cs) = true := rfl

/-- Two digits, in either case, are 16 times the first and the second (rule R82). -/
theorem hexByte_digits {h l : Nat} (hh : h < 16) (hl : l < 16) {x y : Char}
    (hx : x ∈ [hexDigits.getD h '0', (hexDigits.getD h '0').toLower])
    (hy : y ∈ [hexDigits.getD l '0', (hexDigits.getD l '0').toLower]) :
    hexByte x y = some (BitVec.ofNat 8 (16 * h + l)) := by
  have digit : ∀ n : Fin 16, hexDigit (hexDigits.getD n.val '0') = some n.val ∧
      hexDigit (hexDigits.getD n.val '0').toLower = some n.val := by decide
  have either : ∀ n, n < 16 → ∀ c, c ∈ [hexDigits.getD n '0', (hexDigits.getD n '0').toLower] → hexDigit c = some n := by
    intro n hn c hc
    simp only [List.mem_cons, List.not_mem_nil, or_false] at hc
    obtain rfl | rfl := hc
    · exact (digit ⟨n, hn⟩).1
    · exact (digit ⟨n, hn⟩).2
  simp only [hexByte, either h hh x hx, either l hl y hy]

/-- The digits of a printed byte are read as that byte. -/
theorem hexByte_hexText (b : Byte) :
    hexByte (hexDigits.getD (b.toNat / 16) '0') (hexDigits.getD (b.toNat % 16) '0') = some b := by
  have hb := b.isLt
  rw [hexByte_digits (h := b.toNat / 16) (l := b.toNat % 16) (by omega) (by omega) (by simp) (by simp), Nat.div_add_mod,
    BitVec.ofNat_toNat, BitVec.setWidth_eq]

/-- A printed byte after a space is read as that byte, before whatever bytes follow (rule R83). -/
theorem hexBytes_cons (b : Byte) {cs : List Char} (hcs : atBreak cs = true) {m : List Byte} (hm : hexBytes cs = some m) :
    hexBytes (' ' :: hexText b ++ cs) = some (b :: m) := by
  simp only [hexText, List.cons_append, List.nil_append, hexBytes, hcs, if_true, hexByte_hexText, hm]

/-- A list of printed bytes, a space before each, is read as the list (rule R83). -/
theorem hexBytes_hexText (m : List Byte) : hexBytes (m.map fun b => ' ' :: hexText b).flatten = some m := by
  induction m with
  | nil => rfl
  | cons b m ih => exact hexBytes_cons b (by cases m <;> rfl) ih

/-- A text of ASCII characters before a closing quote is read as their codes (rule R83). -/
theorem takeText_ascii (text rest : List Char) (h : ∀ c ∈ text, c.toNat ≤ 0x7F ∧ c ≠ textQuote) :
    takeText (text ++ textQuote :: rest) = some (text.map fun c => BitVec.ofNat 8 c.toNat, rest) := by
  induction text with
  | nil => rfl
  | cons c cs ih =>
    have hc := h c List.mem_cons_self
    rw [List.cons_append, takeText, if_neg hc.2, ih fun c hc => h c (List.mem_cons_of_mem _ hc)]
    simp [asciiByte, hc.1]

end Sys2Proof.Machine
end

