-- ==== Sys2Proof/Laws/Words.lean ====
section
/-! SUPPORT. The laws of a sequence of eight words: reading what was tabulated, and equality word by word. -/

namespace Sys2Proof

@[simp] theorem Words.get_ofFn (f : Fin 8 → Word) (i : Fin 8) : (Words.ofFn f).get i = f i := by
  fin_cases i <;> rfl

@[simp] theorem Words.ofFn_get (a : Words) : Words.ofFn a.get = a := rfl

theorem Words.ext_get {a b : Words} (h : ∀ i, a.get i = b.get i) : a = b := by
  rw [← Words.ofFn_get a, ← Words.ofFn_get b, funext h]

@[simp] theorem Words.get_zero (i : Fin 8) : Words.zero.get i = 0 := Words.get_ofFn _ i

@[simp] theorem Words.get_mk_zero (a b c d e f g h : Word) : (Words.mk a b c d e f g h).get 0 = a := rfl

/-- Changing word 0 leaves the other seven. -/
theorem Words.get_with_w0 (a : Words) (w : Word) (i : Fin 8) :
    ({ a with w0 := w } : Words).get i = if i = 0 then w else a.get i := by
  fin_cases i <;> rfl

end Sys2Proof
end

