-- ==== Sys2Proof/Laws/Operands.lean ====
section
/-! SUPPORT. The laws of bytes and words: packing and reading back, rotation and exclusive or byte by byte. -/

namespace Sys2Proof.Machine

theorem extract_append_high {n m : Nat} (x : BitVec n) (y : BitVec m) (s len : Nat) (h : m ≤ s) :
    (x ++ y).extractLsb' s len = x.extractLsb' (s - m) len := by
  ext i hi
  simp only [BitVec.getElem_extractLsb', BitVec.getLsbD_append]
  rw [if_neg (by omega)]
  congr 1
  omega

theorem extract_append_low {n m : Nat} (x : BitVec n) (y : BitVec m) (s len : Nat) (h : s + len ≤ m) :
    (x ++ y).extractLsb' s len = y.extractLsb' s len := by
  ext i hi
  simp only [BitVec.getElem_extractLsb', BitVec.getLsbD_append]
  rw [if_pos (by omega)]

theorem extract_whole {w : Nat} (x : BitVec w) (s : Nat) (h : s = 0) : x.extractLsb' s w = x := by
  subst h
  exact BitVec.extractLsb'_eq_self

/-- The byte at position `t` of a packed word is byte `t` (rule R10). -/
@[simp] theorem byteOf_packWord (b : Fin 8 → Byte) (t : Fin 8) : byteOf (packWord b) t = b t := by
  obtain ⟨t, ht⟩ := t
  change BitVec.extractLsb' (n := 8 + 8 + 8 + 8 + 8 + 8 + 8 + 8) (56 - 8 * t) 8
    (b 0 ++ b 1 ++ b 2 ++ b 3 ++ b 4 ++ b 5 ++ b 6 ++ b 7) = b ⟨t, ht⟩
  interval_cases t <;>
    simp (disch := omega) only [extract_append_high, extract_append_low, extract_whole] <;> rfl

/-- Words with the same eight bytes are equal. -/
theorem word_ext_byte {v w : Word} (h : ∀ t, byteOf v t = byteOf w t) : v = w := by
  ext i hi
  have := congrArg (fun b : Byte => b.getLsbD (i % 8)) (h ⟨7 - i / 8, by omega⟩)
  simp only [byteOf, BitVec.getLsbD_extractLsb'] at this
  rw [show 56 - 8 * (7 - i / 8) + i % 8 = i by omega] at this
  simpa [show i % 8 < 8 by omega, BitVec.getLsbD_eq_getElem hi] using this

/-- A word is its own eight bytes packed. -/
@[simp] theorem packWord_byteOf (w : Word) : packWord (byteOf w) = w :=
  word_ext_byte fun t => byteOf_packWord _ t

/-- Rotation by `n` bytes moves byte `t - n` to position `t` (rule R12). -/
theorem byteOf_ror64 (w : Word) (n t : Fin 8) : byteOf (ror64 w (8 * n.val)) t = byteOf w (t - n) := by
  ext i hi
  simp only [byteOf, ror64, BitVec.getElem_extractLsb', BitVec.getLsbD_or, BitVec.getLsbD_ushiftRight,
    BitVec.getLsbD_shiftLeft]
  have := n.isLt
  have := t.isLt
  have hs : (t - n).val = if n.val ≤ t.val then t.val - n.val else 8 + t.val - n.val := by
    rw [Fin.sub_def]
    simp only
    split <;> omega
  rw [hs]
  split
  · rw [show 56 - 8 * (t.val - n.val) + i = 8 * n.val + (56 - 8 * t.val + i) by omega]
    by_cases h0 : n.val = 0
    · simp [h0]
    · simp [show 56 - 8 * t.val + i < 64 - 8 * n.val by omega]
  · rw [BitVec.getLsbD_of_ge w (8 * n.val + (56 - 8 * t.val + i)) (by omega)]
    simp only [Bool.false_or, show 56 - 8 * t.val + i < 64 by omega,
      show ¬ 56 - 8 * t.val + i < 64 - 8 * n.val by omega, decide_true, decide_false, Bool.not_false, Bool.true_and]
    congr 1
    omega

theorem byteOf_xor (v w : Word) (t : Fin 8) : byteOf (v ^^^ w) t = byteOf v t ^^^ byteOf w t := by
  ext i hi
  simp [byteOf]

theorem byteOf_and (v w : Word) (t : Fin 8) : byteOf (v &&& w) t = byteOf v t &&& byteOf w t := by
  ext i hi
  simp [byteOf]

/-- Exclusive or over eight words, byte by byte. -/
theorem byteOf_xorOver (f : Fin 8 → Word) (k : Fin 8) :
    byteOf (xorOver f) k = byteOf (f 0) k ^^^ byteOf (f 1) k ^^^ byteOf (f 2) k ^^^ byteOf (f 3) k ^^^
      byteOf (f 4) k ^^^ byteOf (f 5) k ^^^ byteOf (f 6) k ^^^ byteOf (f 7) k := by
  simp only [xorOver, byteOf_xor]

@[simp] theorem get_xorWords (a b : Words) (i : Fin 8) : (xorWords a b).get i = a.get i ^^^ b.get i :=
  Words.get_ofFn _ i

/-- Item `i` of a tabulated sequence. -/
@[simp] theorem getElem_tabulate {α : Type} (n : Nat) (f : Nat → α) (i : Nat) (h : i < n) : (tabulate n f)[i] = f i := by
  simp [tabulate]

/-- Byte `t` of a 32-byte field of a 256-bit value is `v[255 - 8t : 248 - 8t]` (rule R51). -/
theorem byteOfField_32 (v : BitVec 256) (t : Nat) : byteOfField 32 v t = v.extractLsb' (8 * (31 - t)) 8 := rfl

end Sys2Proof.Machine
end

