-- ==== Sys2Proof/Laws/Generator.lean ====
section
/-! SUPPORT. What the tables hold after GEN, read entry by entry, and the arithmetic of XTIME. -/

namespace Sys2Proof.Machine

/-- GEN leaves SROM as it is (rule R21). -/
@[simp] theorem gen_S (srom : Vector Byte 256) (x : Byte) : (gen srom).S x = srom[x.toNat]'(x.isLt) := rfl

/-- GEN's entry of C at row `t`, column `x` (rules R102 and R103). -/
theorem gen_C (srom : Vector Byte 256) (t : Fin 8) (x : Byte) :
    (gen srom).C t x = crows (crow0 (srom[x.toNat]'(x.isLt))) t.val := by
  change ((genC srom)[t.val])[x.toNat]'(x.isLt) = _
  simp only [genC, getElem_tabulate]
  congr 2
  rw [List.getD_eq_getElem _ _ (by simpa using x.isLt)]
  simp

/-- GEN's round constant `r` (rule R105). -/
theorem gen_RC (srom : Vector Byte 256) (r : Fin 10) : (gen srom).RC r = rcgen (gen srom).C r.val := by
  change (tabulate 10 (rcgen _))[r.val] = _
  rw [getElem_tabulate]
  rfl

/-- `S[x]` of the built tables is entry `x` of the table of rule R20. -/
theorem built_S (x : Byte) : Tables.built.S x = sboxBytes.getD x.toNat 0 := by
  rw [Tables.built, gen_S, List.getD_eq_getElem _ _ (by rw [sboxBytes_length]; exact x.isLt)]
  simp only [sbox, Vector.getElem_mk, List.getElem_toArray]

/-- `RC[r]` of the built tables (rule R105). -/
theorem built_RC (r : Fin 10) : Tables.built.RC r = rcgen Tables.built.C r.val := gen_RC sbox r

/-- `C[t][x]` of the built tables, from `S[x]` (rules R102 and R103). -/
theorem built_C (t : Fin 8) (x : Byte) : Tables.built.C t x = ror64 (crow0 (Tables.built.S x)) (8 * t.val) :=
  gen_C sbox t x

/-- The row-0 word is its eight multiples packed (rule R102). -/
theorem crow0_eq_pack (v : Byte) : crow0 v = packWord fun k => gfTimes (rowMultiplier k) v := by
  have h : ∀ k : Fin 8, gfTimes (rowMultiplier k) v =
      match k with
      | 0 => (mult v).v1
      | 1 => (mult v).v1
      | 2 => (mult v).v4
      | 3 => (mult v).v1
      | 4 => (mult v).v8
      | 5 => (mult v).v5
      | 6 => (mult v).v2
      | 7 => (mult v).v9 := by
    intro k
    fin_cases k <;> simp [gfTimes, rowMultiplier, mult, BitVec.xor_comm]
  simp only [funext h]
  rfl

theorem xtime_eq_shift (v : Byte) : xtime v = v <<< 1 ^^^ (if v.getLsbD 7 then 0x1D else 0) := by
  revert v
  decide +kernel

/-- Halving in GF(2^8), the inverse of doubling. -/
def halve (d : Byte) : Byte := if d.getLsbD 0 then (d ^^^ 0x1D) >>> 1 ||| 0x80 else d >>> 1

theorem halve_xtime (v : Byte) : halve (xtime v) = v := by
  revert v
  decide +kernel

theorem xtime_halve (v : Byte) : xtime (halve v) = v := by
  revert v
  decide +kernel

/-- XTIME is a bijection on bytes (rule R100). -/
theorem xtime_bijective : Function.Bijective xtime :=
  ⟨Function.LeftInverse.injective halve_xtime, Function.RightInverse.surjective xtime_halve⟩

end Sys2Proof.Machine
end

