-- ==== Sys2Proof/Laws/Memory.lean ====
section
/-! SUPPORT. The laws of BUF as a list of cells: read after write, the canonical form kept by every operation, and equality of
canonical memories that read alike. -/

namespace Sys2Proof.Machine

@[simp] theorem Memory.read_zero (a : Nat) : Memory.zero.read a = 0x00 := rfl

@[simp] theorem Memory.wf_zero : Memory.zero.wf = true := rfl

/-- What the canonical form says of a memory with a first cell. -/
theorem Memory.wfFrom_cons {lo k : Nat} {v : Byte} {m : Memory} :
    Memory.wfFrom lo ((k, v) :: m) = true ↔
      lo ≤ k ∧ k < 64 ∧ v ≠ Memory.unlisted ∧ Memory.wfFrom (k + 1) m = true := by
  simp only [Memory.wfFrom, Bool.and_eq_true, decide_eq_true_eq, and_assoc]
  rfl

theorem Memory.wfFrom_mono {lo lo' : Nat} {m : Memory} (h : lo' ≤ lo) (hm : Memory.wfFrom lo m = true) :
    Memory.wfFrom lo' m = true := by
  cases m with
  | nil => rfl
  | cons c m =>
    obtain ⟨k, v⟩ := c
    rw [Memory.wfFrom_cons] at hm ⊢
    exact ⟨h.trans hm.1, hm.2⟩

/-- Below its first possible index a canonical memory reads as unlisted. -/
theorem Memory.read_below {lo a : Nat} {m : Memory} (hm : Memory.wfFrom lo m = true) (h : a < lo) :
    m.read a = Memory.unlisted := by
  induction m generalizing lo with
  | nil => rfl
  | cons c m ih =>
    obtain ⟨k, v⟩ := c
    rw [Memory.wfFrom_cons] at hm
    rw [Memory.read, if_neg (by omega)]
    exact ih hm.2.2.2 (by omega)

theorem Memory.wfFrom_write {lo a : Nat} {m : Memory} (hm : Memory.wfFrom lo m = true) (hlo : lo ≤ a) (ha : a < 64)
    (b : Byte) : Memory.wfFrom lo (m.write a b) = true := by
  induction m generalizing lo with
  | nil =>
    unfold Memory.write
    split
    · rfl
    · rename_i hb
      exact Memory.wfFrom_cons.2 ⟨hlo, ha, hb, rfl⟩
  | cons c m ih =>
    obtain ⟨k, v⟩ := c
    have hk := Memory.wfFrom_cons.1 hm
    unfold Memory.write
    split
    · split
      · exact hm
      · rename_i hak hb
        exact Memory.wfFrom_cons.2 ⟨hlo, ha, hb, Memory.wfFrom_cons.2 ⟨hak, hk.2⟩⟩
    · split
      · rename_i h1 h2
        subst h2
        split
        · exact Memory.wfFrom_mono (by omega) hk.2.2.2
        · rename_i hb
          exact Memory.wfFrom_cons.2 ⟨hlo, ha, hb, hk.2.2.2⟩
      · exact Memory.wfFrom_cons.2 ⟨hk.1, hk.2.1, hk.2.2.1, ih hk.2.2.2 (by omega)⟩

/-- A write inside BUF keeps the canonical form. -/
theorem Memory.wf_write {m : Memory} (hm : m.wf = true) {a : Nat} (ha : a < 64) (b : Byte) : (m.write a b).wf = true :=
  Memory.wfFrom_write hm (Nat.zero_le a) ha b

theorem Memory.read_write_from {lo : Nat} {m : Memory} (hm : Memory.wfFrom lo m = true) (a : Nat) (b : Byte) (j : Nat) :
    (m.write a b).read j = if j = a then b else m.read j := by
  induction m generalizing lo with
  | nil =>
    by_cases hb : b = Memory.unlisted <;> by_cases hj : j = a <;> simp [Memory.write, Memory.read, hb, hj]
  | cons c m ih =>
    obtain ⟨k, v⟩ := c
    have hk := Memory.wfFrom_cons.1 hm
    have below : ∀ i, i < k + 1 → Memory.read m i = Memory.unlisted := fun i hi => Memory.read_below hk.2.2.2 hi
    unfold Memory.write
    by_cases hak : a < k
    · by_cases hb : b = Memory.unlisted
      · by_cases hj : j = a
        · subst hj
          simp [hak, hb, Memory.read, below j (by omega), show j ≠ k by omega]
        · simp [hak, hb, hj]
      · by_cases hj : j = a <;> simp [hak, hb, hj, Memory.read]
    · by_cases hae : a = k
      · subst hae
        by_cases hb : b = Memory.unlisted
        · by_cases hj : j = a
          · subst hj
            simp [hb, below j (by omega)]
          · simp [hb, hj, Memory.read]
        · by_cases hj : j = a <;> simp [hb, hj, Memory.read]
      · by_cases hjk : j = k
        · subst hjk
          simp [hak, hae, Memory.read, show ¬ j = a by omega]
        · simp [hak, hae, Memory.read, hjk, ih hk.2.2.2]

/-- Reading after a write: the byte written at its index, the old byte everywhere else. -/
theorem Memory.read_write {m : Memory} (hm : m.wf = true) (a : Nat) (b : Byte) (j : Nat) :
    (m.write a b).read j = if j = a then b else m.read j := Memory.read_write_from hm a b j

/-- A sequence of writes at the indices of a list keeps the canonical form. -/
theorem Memory.wf_foldl_write (f : Nat → Nat) (g : Nat → Byte) (l : List Nat) {m : Memory} (hm : m.wf = true)
    (hl : ∀ k ∈ l, f k < 64) : (l.foldl (fun m k => m.write (f k) (g k)) m).wf = true := by
  induction l generalizing m with
  | nil => exact hm
  | cons k l ih =>
    exact ih (Memory.wf_write hm (hl k (by simp)) (g k)) fun k' hk' => hl k' (List.mem_cons_of_mem _ hk')

/-- An index that no write of the sequence names keeps its byte. -/
theorem Memory.read_foldl_write_other (f : Nat → Nat) (g : Nat → Byte) (l : List Nat) {m : Memory} (hm : m.wf = true)
    (hl : ∀ k ∈ l, f k < 64) {j : Nat} (hj : ∀ k ∈ l, f k ≠ j) :
    (l.foldl (fun m k => m.write (f k) (g k)) m).read j = m.read j := by
  induction l generalizing m with
  | nil => rfl
  | cons k l ih =>
    rw [List.foldl_cons, ih (Memory.wf_write hm (hl k (by simp)) (g k)) (fun k' hk' => hl k' (List.mem_cons_of_mem _ hk'))
      (fun k' hk' => hj k' (List.mem_cons_of_mem _ hk')), Memory.read_write hm, if_neg (Ne.symm (hj k (by simp)))]

/-- The index written for `k` holds the byte written for it, where no two writes share an index. -/
theorem Memory.read_foldl_write (f : Nat → Nat) (g : Nat → Byte) (l : List Nat) {m : Memory} (hm : m.wf = true)
    (hl : ∀ k ∈ l, f k < 64) (hf : Function.Injective f) (hn : l.Nodup) {k : Nat} (hk : k ∈ l) :
    (l.foldl (fun m k => m.write (f k) (g k)) m).read (f k) = g k := by
  induction l generalizing m with
  | nil => cases hk
  | cons k' l ih =>
    have hw := Memory.wf_write hm (hl k' (by simp)) (g k')
    have hl' : ∀ k ∈ l, f k < 64 := fun i hi => hl i (List.mem_cons_of_mem _ hi)
    obtain ⟨hkl, hn'⟩ := List.nodup_cons.1 hn
    rw [List.foldl_cons]
    rcases List.mem_cons.1 hk with rfl | hk'
    · rw [Memory.read_foldl_write_other f g l hw hl' fun i hi he => hkl (by rwa [← hf he]), Memory.read_write hm, if_pos rfl]
    · exact ih hw hl' hn' hk'

/-- The zero fill keeps the canonical form. -/
theorem Memory.wf_zeroFrom {m : Memory} (hm : m.wf = true) (n : Nat) : (m.zeroFrom n).wf = true := by
  refine Memory.wf_foldl_write id (fun _ => 0x00) _ hm fun k hk => ?_
  simp only [List.mem_range'_1, Config.blockBytes] at hk
  simp only [id]
  omega

/-- The zero fill clears the bytes from `n` to 63 and no other. -/
theorem Memory.read_zeroFrom {m : Memory} (hm : m.wf = true) (n j : Nat) :
    (m.zeroFrom n).read j = if n ≤ j ∧ j < 64 then 0x00 else m.read j := by
  have hl : ∀ k ∈ List.range' n (Config.blockBytes - n), id k < 64 := by
    intro k hk
    simp only [List.mem_range'_1, Config.blockBytes] at hk
    simp only [id]
    omega
  split
  · rename_i h
    refine Memory.read_foldl_write id (fun _ => 0x00) _ hm hl Function.injective_id List.nodup_range' ?_
    simp only [List.mem_range'_1, Config.blockBytes]
    omega
  · rename_i h
    refine Memory.read_foldl_write_other id (fun _ => 0x00) _ hm hl fun k hk he => h ?_
    simp only [List.mem_range'_1, Config.blockBytes] at hk
    simp only [id] at he
    omega

/-- Above index 63 a canonical memory holds nothing. -/
theorem Memory.read_above {lo a : Nat} {m : Memory} (hm : Memory.wfFrom lo m = true) (h : 64 ≤ a) :
    m.read a = Memory.unlisted := by
  induction m generalizing lo with
  | nil => rfl
  | cons c m ih =>
    obtain ⟨k, v⟩ := c
    have hk := Memory.wfFrom_cons.1 hm
    rw [Memory.read, if_neg (by omega)]
    exact ih hk.2.2.2

theorem Memory.ext_from {lo : Nat} {m n : Memory} (hm : Memory.wfFrom lo m = true) (hn : Memory.wfFrom lo n = true)
    (h : ∀ a, m.read a = n.read a) : m = n := by
  induction m generalizing lo n with
  | nil =>
    cases n with
    | nil => rfl
    | cons c n =>
      obtain ⟨k, v⟩ := c
      have hk := Memory.wfFrom_cons.1 hn
      exact absurd (by simpa [Memory.read] using (h k).symm) hk.2.2.1
  | cons c m ih =>
    obtain ⟨k, v⟩ := c
    have hk := Memory.wfFrom_cons.1 hm
    cases n with
    | nil => exact absurd (by simpa [Memory.read] using h k) hk.2.2.1
    | cons d n =>
      obtain ⟨k', v'⟩ := d
      have hk' := Memory.wfFrom_cons.1 hn
      have hkk : k = k' := by
        rcases lt_trichotomy k k' with hlt | heq | hgt
        · have := h k
          simp [Memory.read, show k ≠ k' by omega, Memory.read_below hk'.2.2.2 (show k < k' + 1 by omega)] at this
          exact absurd this hk.2.2.1
        · exact heq
        · have := h k'
          simp [Memory.read, show k' ≠ k by omega, Memory.read_below hk.2.2.2 (show k' < k + 1 by omega)] at this
          exact absurd this.symm hk'.2.2.1
      subst hkk
      have hv : v = v' := by simpa [Memory.read] using h k
      subst hv
      congr 1
      refine ih hk.2.2.2 hk'.2.2.2 fun a => ?_
      by_cases hak : a = k
      · subst hak
        rw [Memory.read_below hk.2.2.2 (by omega), Memory.read_below hk'.2.2.2 (by omega)]
      · simpa [Memory.read, hak] using h a

/-- Canonical memories that read alike are equal. -/
theorem Memory.ext_read {m n : Memory} (hm : m.wf = true) (hn : n.wf = true) (h : ∀ a, m.read a = n.read a) : m = n :=
  Memory.ext_from hm hn h

end Sys2Proof.Machine
end

