-- ==== Sys2Proof/Laws/State.lean ====
section
/-! SUPPORT. One law per field per update of the state, so that no later proof unfolds a record update. -/

namespace Sys2Proof.Machine

variable (s : State)

@[ext] theorem State.ext_fields {s t : State} (tables : s.tables = t.tables) (h : s.h = t.h) (buf : s.buf = t.buf)
    (pos : s.pos = t.pos) (len : s.len = t.len) (st : s.st = t.st) (err : s.err = t.err) (resp : s.resp = t.resp)
    (host : s.host = t.host) : s = t := by
  cases s
  cases t
  simp_all

@[simp] theorem State.setH_tables (v : Words) : (s.setH v).tables = s.tables := (rfl)
@[simp] theorem State.setH_h (v : Words) : (s.setH v).h = v := (rfl)
@[simp] theorem State.setH_buf (v : Words) : (s.setH v).buf = s.buf := (rfl)
@[simp] theorem State.setH_pos (v : Words) : (s.setH v).pos = s.pos := (rfl)
@[simp] theorem State.setH_len (v : Words) : (s.setH v).len = s.len := (rfl)
@[simp] theorem State.setH_st (v : Words) : (s.setH v).st = s.st := (rfl)
@[simp] theorem State.setH_err (v : Words) : (s.setH v).err = s.err := (rfl)
@[simp] theorem State.setH_resp (v : Words) : (s.setH v).resp = s.resp := (rfl)
@[simp] theorem State.setH_host (v : Words) : (s.setH v).host = s.host := (rfl)

@[simp] theorem State.setBuf_tables (m : Memory) : (s.setBuf m).tables = s.tables := (rfl)
@[simp] theorem State.setBuf_h (m : Memory) : (s.setBuf m).h = s.h := (rfl)
@[simp] theorem State.setBuf_buf (m : Memory) : (s.setBuf m).buf = m := (rfl)
@[simp] theorem State.setBuf_pos (m : Memory) : (s.setBuf m).pos = s.pos := (rfl)
@[simp] theorem State.setBuf_len (m : Memory) : (s.setBuf m).len = s.len := (rfl)
@[simp] theorem State.setBuf_st (m : Memory) : (s.setBuf m).st = s.st := (rfl)
@[simp] theorem State.setBuf_err (m : Memory) : (s.setBuf m).err = s.err := (rfl)
@[simp] theorem State.setBuf_resp (m : Memory) : (s.setBuf m).resp = s.resp := (rfl)
@[simp] theorem State.setBuf_host (m : Memory) : (s.setBuf m).host = s.host := (rfl)

@[simp] theorem State.setPos_tables (v : BitVec 6) : (s.setPos v).tables = s.tables := (rfl)
@[simp] theorem State.setPos_h (v : BitVec 6) : (s.setPos v).h = s.h := (rfl)
@[simp] theorem State.setPos_buf (v : BitVec 6) : (s.setPos v).buf = s.buf := (rfl)
@[simp] theorem State.setPos_pos (v : BitVec 6) : (s.setPos v).pos = v := (rfl)
@[simp] theorem State.setPos_len (v : BitVec 6) : (s.setPos v).len = s.len := (rfl)
@[simp] theorem State.setPos_st (v : BitVec 6) : (s.setPos v).st = s.st := (rfl)
@[simp] theorem State.setPos_err (v : BitVec 6) : (s.setPos v).err = s.err := (rfl)
@[simp] theorem State.setPos_resp (v : BitVec 6) : (s.setPos v).resp = s.resp := (rfl)
@[simp] theorem State.setPos_host (v : BitVec 6) : (s.setPos v).host = s.host := (rfl)

@[simp] theorem State.setLen_tables (v : BitVec 256) : (s.setLen v).tables = s.tables := (rfl)
@[simp] theorem State.setLen_h (v : BitVec 256) : (s.setLen v).h = s.h := (rfl)
@[simp] theorem State.setLen_buf (v : BitVec 256) : (s.setLen v).buf = s.buf := (rfl)
@[simp] theorem State.setLen_pos (v : BitVec 256) : (s.setLen v).pos = s.pos := (rfl)
@[simp] theorem State.setLen_len (v : BitVec 256) : (s.setLen v).len = v := (rfl)
@[simp] theorem State.setLen_st (v : BitVec 256) : (s.setLen v).st = s.st := (rfl)
@[simp] theorem State.setLen_err (v : BitVec 256) : (s.setLen v).err = s.err := (rfl)
@[simp] theorem State.setLen_resp (v : BitVec 256) : (s.setLen v).resp = s.resp := (rfl)
@[simp] theorem State.setLen_host (v : BitVec 256) : (s.setLen v).host = s.host := (rfl)

@[simp] theorem State.setSt_tables (v : DriverState) : (s.setSt v).tables = s.tables := (rfl)
@[simp] theorem State.setSt_h (v : DriverState) : (s.setSt v).h = s.h := (rfl)
@[simp] theorem State.setSt_buf (v : DriverState) : (s.setSt v).buf = s.buf := (rfl)
@[simp] theorem State.setSt_pos (v : DriverState) : (s.setSt v).pos = s.pos := (rfl)
@[simp] theorem State.setSt_len (v : DriverState) : (s.setSt v).len = s.len := (rfl)
@[simp] theorem State.setSt_st (v : DriverState) : (s.setSt v).st = v := (rfl)
@[simp] theorem State.setSt_err (v : DriverState) : (s.setSt v).err = s.err := (rfl)
@[simp] theorem State.setSt_resp (v : DriverState) : (s.setSt v).resp = s.resp := (rfl)
@[simp] theorem State.setSt_host (v : DriverState) : (s.setSt v).host = s.host := (rfl)

@[simp] theorem State.setErr_tables (v : BitVec 2) : (s.setErr v).tables = s.tables := (rfl)
@[simp] theorem State.setErr_h (v : BitVec 2) : (s.setErr v).h = s.h := (rfl)
@[simp] theorem State.setErr_buf (v : BitVec 2) : (s.setErr v).buf = s.buf := (rfl)
@[simp] theorem State.setErr_pos (v : BitVec 2) : (s.setErr v).pos = s.pos := (rfl)
@[simp] theorem State.setErr_len (v : BitVec 2) : (s.setErr v).len = s.len := (rfl)
@[simp] theorem State.setErr_st (v : BitVec 2) : (s.setErr v).st = s.st := (rfl)
@[simp] theorem State.setErr_err (v : BitVec 2) : (s.setErr v).err = v := (rfl)
@[simp] theorem State.setErr_resp (v : BitVec 2) : (s.setErr v).resp = s.resp := (rfl)
@[simp] theorem State.setErr_host (v : BitVec 2) : (s.setErr v).host = s.host := (rfl)

@[simp] theorem State.setResp_tables (r : Response) : (s.setResp r).tables = s.tables := (rfl)
@[simp] theorem State.setResp_h (r : Response) : (s.setResp r).h = s.h := (rfl)
@[simp] theorem State.setResp_buf (r : Response) : (s.setResp r).buf = s.buf := (rfl)
@[simp] theorem State.setResp_pos (r : Response) : (s.setResp r).pos = s.pos := (rfl)
@[simp] theorem State.setResp_len (r : Response) : (s.setResp r).len = s.len := (rfl)
@[simp] theorem State.setResp_st (r : Response) : (s.setResp r).st = s.st := (rfl)
@[simp] theorem State.setResp_err (r : Response) : (s.setResp r).err = s.err := (rfl)
@[simp] theorem State.setResp_resp (r : Response) : (s.setResp r).resp = some r := (rfl)
@[simp] theorem State.setResp_host (r : Response) : (s.setResp r).host = s.host := (rfl)

@[simp] theorem State.setHost_tables (ms : List HostMove) : (s.setHost ms).tables = s.tables := (rfl)
@[simp] theorem State.setHost_h (ms : List HostMove) : (s.setHost ms).h = s.h := (rfl)
@[simp] theorem State.setHost_buf (ms : List HostMove) : (s.setHost ms).buf = s.buf := (rfl)
@[simp] theorem State.setHost_pos (ms : List HostMove) : (s.setHost ms).pos = s.pos := (rfl)
@[simp] theorem State.setHost_len (ms : List HostMove) : (s.setHost ms).len = s.len := (rfl)
@[simp] theorem State.setHost_st (ms : List HostMove) : (s.setHost ms).st = s.st := (rfl)
@[simp] theorem State.setHost_err (ms : List HostMove) : (s.setHost ms).err = s.err := (rfl)
@[simp] theorem State.setHost_resp (ms : List HostMove) : (s.setHost ms).resp = s.resp := (rfl)
@[simp] theorem State.setHost_host (ms : List HostMove) : (s.setHost ms).host = ms := (rfl)

@[simp] theorem State.bufWrite_tables (j : Nat) (b : Byte) : (s.bufWrite j b).tables = s.tables := (rfl)
@[simp] theorem State.bufWrite_h (j : Nat) (b : Byte) : (s.bufWrite j b).h = s.h := (rfl)
@[simp] theorem State.bufWrite_buf (j : Nat) (b : Byte) : (s.bufWrite j b).buf = s.buf.write j b := (rfl)
@[simp] theorem State.bufWrite_pos (j : Nat) (b : Byte) : (s.bufWrite j b).pos = s.pos := (rfl)
@[simp] theorem State.bufWrite_len (j : Nat) (b : Byte) : (s.bufWrite j b).len = s.len := (rfl)
@[simp] theorem State.bufWrite_st (j : Nat) (b : Byte) : (s.bufWrite j b).st = s.st := (rfl)
@[simp] theorem State.bufWrite_err (j : Nat) (b : Byte) : (s.bufWrite j b).err = s.err := (rfl)
@[simp] theorem State.bufWrite_resp (j : Nat) (b : Byte) : (s.bufWrite j b).resp = s.resp := (rfl)
@[simp] theorem State.bufWrite_host (j : Nat) (b : Byte) : (s.bufWrite j b).host = s.host := (rfl)

@[simp] theorem State.bufClear_tables : s.bufClear.tables = s.tables := (rfl)
@[simp] theorem State.bufClear_h : s.bufClear.h = s.h := (rfl)
@[simp] theorem State.bufClear_buf : s.bufClear.buf = Memory.zero := (rfl)
@[simp] theorem State.bufClear_pos : s.bufClear.pos = s.pos := (rfl)
@[simp] theorem State.bufClear_len : s.bufClear.len = s.len := (rfl)
@[simp] theorem State.bufClear_st : s.bufClear.st = s.st := (rfl)
@[simp] theorem State.bufClear_err : s.bufClear.err = s.err := (rfl)
@[simp] theorem State.bufClear_resp : s.bufClear.resp = s.resp := (rfl)
@[simp] theorem State.bufClear_host : s.bufClear.host = s.host := (rfl)

@[simp] theorem State.raised_tables (e : CoreError) : (s.raised e).tables = s.tables := (rfl)
@[simp] theorem State.raised_h (e : CoreError) : (s.raised e).h = s.h := (rfl)
@[simp] theorem State.raised_buf (e : CoreError) : (s.raised e).buf = s.buf := (rfl)
@[simp] theorem State.raised_pos (e : CoreError) : (s.raised e).pos = s.pos := (rfl)
@[simp] theorem State.raised_len (e : CoreError) : (s.raised e).len = s.len := (rfl)
@[simp] theorem State.raised_st (e : CoreError) : (s.raised e).st = s.st := (rfl)
@[simp] theorem State.raised_err (e : CoreError) : (s.raised e).err = errAfter s.err e := (rfl)
@[simp] theorem State.raised_resp (e : CoreError) : (s.raised e).resp = some e.response := (rfl)
@[simp] theorem State.raised_host (e : CoreError) : (s.raised e).host = s.host := (rfl)

@[simp] theorem State.bufRead_def (j : Nat) : s.bufRead j = s.buf.read j := (rfl)

@[simp] theorem State.live_iff : s.live = true ↔ s.err = 0b00 := by simp [State.live]

@[simp] theorem State.loFlag_def : s.loFlag = s.err.getLsbD 1 := (rfl)

@[simp] theorem State.isFlag_def : s.isFlag = s.err.getLsbD 0 := (rfl)

@[simp] theorem State.reset_tables : State.reset.tables = Tables.built := (rfl)
@[simp] theorem State.reset_h : State.reset.h = Words.zero := (rfl)
@[simp] theorem State.reset_buf : State.reset.buf = Memory.zero := (rfl)
@[simp] theorem State.reset_pos : State.reset.pos = 0 := (rfl)
@[simp] theorem State.reset_len : State.reset.len = 0 := (rfl)
@[simp] theorem State.reset_st : State.reset.st = .empty := (rfl)
@[simp] theorem State.reset_err : State.reset.err = 0b00 := (rfl)
@[simp] theorem State.reset_resp : State.reset.resp = none := (rfl)
@[simp] theorem State.reset_host : State.reset.host = [] := (rfl)

end Sys2Proof.Machine
end

