-- ==== Sys2Proof/Laws/Padding.lean ====
section
/-! SUPPORT. What each operation of Padding and Block Assembly does, read byte by byte, and the fields it leaves alone. -/

namespace Sys2Proof.Machine

theorem byteOf_packBytes (b : Nat → Byte) (i k : Fin 8) :
    byteOf ((packBytes b).get i) k = b (8 * i.val + k.val) := by
  rw [packBytes, Words.get_ofFn, byteOf_packWord]

/-- PACK reads the first 64 bytes and no other. -/
theorem packBytes_congr {b b' : Nat → Byte} (h : ∀ j, j < 64 → b j = b' j) : packBytes b = packBytes b' := by
  refine Words.ext_get fun i => word_ext_byte fun k => ?_
  rw [byteOf_packBytes, byteOf_packBytes]
  exact h _ (by omega)

theorem pack_congr {m n : Memory} (h : ∀ j, j < 64 → m.read j = n.read j) : pack m = pack n := packBytes_congr h

/-- Digest byte `j` (rule R148). -/
theorem getElem_ser (h : Words) (j : Nat) (hj : j < 64) :
    (ser h)[j] = byteOf (h.get ⟨j / 8, by omega⟩) ⟨j % 8, by omega⟩ := by
  rw [ser, getElem_tabulate]
  congr 1
  · exact congrArg h.get (Fin.ext (by simp [Fin.ofNat]; omega))
  · exact Fin.ext (by simp [Fin.ofNat])

/-- PACK undoes SER (rule R148). -/
theorem packBytes_ser (h : Words) (b : Nat → Byte) (hb : ∀ j (hj : j < 64), b j = (ser h)[j]) : packBytes b = h := by
  refine Words.ext_get fun i => word_ext_byte fun k => ?_
  rw [byteOf_packBytes, hb _ (by omega), getElem_ser]
  have h1 : (⟨(8 * i.val + k.val) / 8, by omega⟩ : Fin 8) = i := Fin.ext (by simp only; omega)
  have h2 : (⟨(8 * i.val + k.val) % 8, by omega⟩ : Fin 8) = k := Fin.ext (by simp only; omega)
  rw [h1, h2]

section Fields

variable (s : State) (b : Byte)

@[simp] theorem padMark_tables : (padMark s).tables = s.tables := by rw [padMark, State.setBuf_tables]
@[simp] theorem padMark_h : (padMark s).h = s.h := by rw [padMark, State.setBuf_h]
@[simp] theorem padMark_pos : (padMark s).pos = s.pos := by rw [padMark, State.setBuf_pos]
@[simp] theorem padMark_len : (padMark s).len = s.len := by rw [padMark, State.setBuf_len]
@[simp] theorem padMark_st : (padMark s).st = s.st := by rw [padMark, State.setBuf_st]
@[simp] theorem padMark_err : (padMark s).err = s.err := by rw [padMark, State.setBuf_err]
@[simp] theorem padMark_resp : (padMark s).resp = s.resp := by rw [padMark, State.setBuf_resp]
@[simp] theorem padMark_host : (padMark s).host = s.host := by rw [padMark, State.setBuf_host]

@[simp] theorem absorbBlock_h : (absorbBlock s).h = compress s.tables s.h (pack s.buf) := (rfl)
@[simp] theorem absorbBlock_tables : (absorbBlock s).tables = s.tables := (rfl)
@[simp] theorem absorbBlock_buf : (absorbBlock s).buf = s.buf := (rfl)
@[simp] theorem absorbBlock_pos : (absorbBlock s).pos = s.pos := (rfl)
@[simp] theorem absorbBlock_len : (absorbBlock s).len = s.len := (rfl)
@[simp] theorem absorbBlock_st : (absorbBlock s).st = s.st := (rfl)
@[simp] theorem absorbBlock_err : (absorbBlock s).err = s.err := (rfl)
@[simp] theorem absorbBlock_resp : (absorbBlock s).resp = s.resp := (rfl)
@[simp] theorem absorbBlock_host : (absorbBlock s).host = s.host := (rfl)

@[simp] theorem append_h : (append b s).h = s.h := (rfl)
@[simp] theorem append_tables : (append b s).tables = s.tables := (rfl)
@[simp] theorem append_buf : (append b s).buf = s.buf.write s.pos.toNat b := (rfl)
@[simp] theorem append_pos : (append b s).pos = s.pos + 1 := (rfl)
@[simp] theorem append_len : (append b s).len = s.len := (rfl)
@[simp] theorem append_st : (append b s).st = s.st := (rfl)
@[simp] theorem append_err : (append b s).err = s.err := (rfl)
@[simp] theorem append_resp : (append b s).resp = s.resp := (rfl)
@[simp] theorem append_host : (append b s).host = s.host := (rfl)

@[simp] theorem flush_h : (flush s).h = compress s.tables s.h (pack s.buf) := (rfl)
@[simp] theorem flush_tables : (flush s).tables = s.tables := (rfl)
@[simp] theorem flush_buf : (flush s).buf = Memory.zero := (rfl)
@[simp] theorem flush_pos : (flush s).pos = 0 := (rfl)
@[simp] theorem flush_len : (flush s).len = s.len := (rfl)
@[simp] theorem flush_st : (flush s).st = s.st := (rfl)
@[simp] theorem flush_err : (flush s).err = s.err := (rfl)
@[simp] theorem flush_resp : (flush s).resp = s.resp := (rfl)
@[simp] theorem flush_host : (flush s).host = s.host := (rfl)

@[simp] theorem lenenc_h : (lenenc s).h = s.h := by rw [lenenc, State.setBuf_h]
@[simp] theorem lenenc_tables : (lenenc s).tables = s.tables := by rw [lenenc, State.setBuf_tables]
@[simp] theorem lenenc_buf : (lenenc s).buf = lenencInto s.len s.buf := by rw [lenenc, State.setBuf_buf]
@[simp] theorem lenenc_pos : (lenenc s).pos = s.pos := by rw [lenenc, State.setBuf_pos]
@[simp] theorem lenenc_len : (lenenc s).len = s.len := by rw [lenenc, State.setBuf_len]
@[simp] theorem lenenc_st : (lenenc s).st = s.st := by rw [lenenc, State.setBuf_st]
@[simp] theorem lenenc_err : (lenenc s).err = s.err := by rw [lenenc, State.setBuf_err]
@[simp] theorem lenenc_resp : (lenenc s).resp = s.resp := by rw [lenenc, State.setBuf_resp]
@[simp] theorem lenenc_host : (lenenc s).host = s.host := by rw [lenenc, State.setBuf_host]

/-- PAD writes H and BUF only (rule R146). -/
theorem pad_frame : (pad s).tables = s.tables ∧ (pad s).pos = s.pos ∧ (pad s).len = s.len ∧ (pad s).st = s.st ∧
    (pad s).err = s.err ∧ (pad s).resp = s.resp ∧ (pad s).host = s.host := by
  unfold pad
  split <;> simp

@[simp] theorem pad_tables : (pad s).tables = s.tables := (pad_frame s).1
@[simp] theorem pad_pos : (pad s).pos = s.pos := (pad_frame s).2.1
@[simp] theorem pad_len : (pad s).len = s.len := (pad_frame s).2.2.1
@[simp] theorem pad_st : (pad s).st = s.st := (pad_frame s).2.2.2.1
@[simp] theorem pad_err : (pad s).err = s.err := (pad_frame s).2.2.2.2.1
@[simp] theorem pad_resp : (pad s).resp = s.resp := (pad_frame s).2.2.2.2.2.1
@[simp] theorem pad_host : (pad s).host = s.host := (pad_frame s).2.2.2.2.2.2

end Fields

/-- LENENC keeps the canonical form. -/
theorem wf_lenencInto {m : Memory} (hm : m.wf = true) (len : BitVec 256) : (lenencInto len m).wf = true := by
  refine Memory.wf_foldl_write (fun k => 32 + k) (byteOfField Config.lenFieldBytes len) _ hm fun k hk => ?_
  simp only [List.mem_range, Config.lenFieldBytes] at hk
  omega

/-- LENENC writes BUF[32 .. 63] and no other byte (rule R145). -/
theorem read_lenencInto {m : Memory} (hm : m.wf = true) (len : BitVec 256) (j : Nat) :
    (lenencInto len m).read j = if 32 ≤ j ∧ j < 64 then byteOfField 32 len (j - 32) else m.read j := by
  have hl : ∀ k ∈ List.range Config.lenFieldBytes, 32 + k < 64 := by
    intro k hk
    simp only [List.mem_range, Config.lenFieldBytes] at hk
    omega
  split
  · rename_i h
    obtain ⟨k, rfl⟩ : ∃ k, j = 32 + k := ⟨j - 32, by omega⟩
    rw [Nat.add_sub_cancel_left]
    refine Memory.read_foldl_write (fun k => 32 + k) (byteOfField Config.lenFieldBytes len) _ hm hl
      (add_right_injective 32) List.nodup_range ?_
    simp only [List.mem_range, Config.lenFieldBytes]
    omega
  · rename_i h
    refine Memory.read_foldl_write_other (fun k => 32 + k) (byteOfField Config.lenFieldBytes len) _ hm hl fun k hk he => h ?_
    simp only [List.mem_range, Config.lenFieldBytes] at hk
    omega

theorem wf_padMark {s : State} (hs : s.buf.wf = true) : (padMark s).buf.wf = true :=
  Memory.wf_zeroFrom (Memory.wf_write hs s.pos.isLt _) _

/-- The block after the mark: the message bytes, 0x80, zeros (rule R146). -/
theorem read_padMark {s : State} (hs : s.buf.wf = true) (j : Nat) (hj : j < 64) :
    (padMark s).buf.read j = if j < s.pos.toNat then s.buf.read j else if j = s.pos.toNat then 0x80 else 0x00 := by
  change Memory.read (Memory.zeroFrom _ (s.pos.toNat + 1)) j = _
  rw [Memory.read_zeroFrom (Memory.wf_write hs s.pos.isLt _), Memory.read_write hs]
  by_cases h1 : j < s.pos.toNat
  · simp [h1, show ¬ s.pos.toNat + 1 ≤ j by omega, show j ≠ s.pos.toNat by omega]
  · by_cases h2 : j = s.pos.toNat
    · simp [h2]
    · simp [h1, h2, hj, show s.pos.toNat + 1 ≤ j by omega]

/-- The block PAD compresses when the length fits behind the mark (rule R146). -/
def lastBlock (s : State) (j : Nat) : Byte :=
  if j < s.pos.toNat then s.buf.read j
  else if j = s.pos.toNat then 0x80
  else if j < 32 then 0x00
  else byteOfField 32 s.len (j - 32)

/-- The first of the two blocks PAD compresses otherwise (rule R146). -/
def markedBlock (s : State) (j : Nat) : Byte :=
  if j < s.pos.toNat then s.buf.read j else if j = s.pos.toNat then 0x80 else 0x00

/-- The second of the two: zeros and the length (rule R146). -/
def lengthBlock (s : State) (j : Nat) : Byte := if j < 32 then 0x00 else byteOfField 32 s.len (j - 32)

theorem pad_of_fits {s : State} (h : ¬ countAfterAppend s > 32) : pad s = absorbBlock (lenenc (padMark s)) := by
  simp only [pad, if_neg h]

theorem pad_of_full {s : State} (h : countAfterAppend s > 32) :
    pad s = absorbBlock (lenenc (absorbBlock (padMark s)).bufClear) := by
  simp only [pad, if_pos h]

/-- PAD with at most 31 bytes in BUF: one compression (rule R146). -/
theorem pad_h_one {s : State} (hs : s.buf.wf = true) (hp : s.pos.toNat ≤ 31) :
    (pad s).h = compress s.tables s.h (packBytes (lastBlock s)) := by
  have hc : ¬ countAfterAppend s > 32 := by simp only [countAfterAppend]; omega
  rw [pad_of_fits hc, absorbBlock_h, lenenc_tables, lenenc_h, lenenc_buf, padMark_tables, padMark_h, padMark_len]
  refine congrArg (compress s.tables s.h) (packBytes_congr fun j hj => ?_)
  rw [read_lenencInto (wf_padMark hs), lastBlock]
  by_cases h : 32 ≤ j
  · simp [h, hj, show ¬ j < s.pos.toNat by omega, show j ≠ s.pos.toNat by omega, show ¬ j < 32 by omega]
  · rw [read_padMark hs j hj]
    simp [h, show j < 32 by omega]

/-- PAD with at least 32 bytes in BUF: two compressions (rule R146). -/
theorem pad_h_two {s : State} (hs : s.buf.wf = true) (hp : 32 ≤ s.pos.toNat) :
    (pad s).h = compress s.tables (compress s.tables s.h (packBytes (markedBlock s))) (packBytes (lengthBlock s)) := by
  have hc : countAfterAppend s > 32 := by simp only [countAfterAppend]; omega
  rw [pad_of_full hc, absorbBlock_h, lenenc_tables, lenenc_h, lenenc_buf, State.bufClear_tables, State.bufClear_h, State.bufClear_len,
    State.bufClear_buf, absorbBlock_tables, absorbBlock_h, absorbBlock_len, padMark_tables, padMark_h, padMark_len]
  refine congrArg₂ (compress s.tables) (congrArg (compress s.tables s.h) ?_) ?_
  · exact packBytes_congr fun j hj => read_padMark hs j hj
  · refine packBytes_congr fun j hj => ?_
    rw [read_lenencInto Memory.wf_zero, lengthBlock]
    by_cases h : 32 ≤ j
    · simp [h, hj, show ¬ j < 32 by omega]
    · simp [h, show j < 32 by omega]

section HostMoves

variable (s : State) (ms : List HostMove)

theorem bufClear_setHost : (s.setHost ms).bufClear = s.bufClear.setHost ms := by
  ext <;> simp

theorem padMark_setHost : padMark (s.setHost ms) = (padMark s).setHost ms := by
  ext <;> simp [padMark, countAfterAppend]

theorem absorbBlock_setHost : absorbBlock (s.setHost ms) = (absorbBlock s).setHost ms := by
  ext <;> simp

theorem lenenc_setHost : lenenc (s.setHost ms) = (lenenc s).setHost ms := by
  ext <;> simp

/-- PAD neither reads nor writes the host's moves. -/
theorem pad_setHost : pad (s.setHost ms) = (pad s).setHost ms := by
  have hc : countAfterAppend (s.setHost ms) = countAfterAppend s := by simp [countAfterAppend]
  by_cases h : countAfterAppend s > 32
  · rw [pad_of_full h, pad_of_full (by rw [hc]; exact h), padMark_setHost, absorbBlock_setHost, bufClear_setHost,
      lenenc_setHost, absorbBlock_setHost]
  · rw [pad_of_fits h, pad_of_fits (by rw [hc]; exact h), padMark_setHost, lenenc_setHost, absorbBlock_setHost]

end HostMoves

end Sys2Proof.Machine
end

