-- ==== Sys2Proof/Laws/HashDriver.lean ====
section
/-! SUPPORT. Everything a command can do, said once: the next state of each command under each condition, and the inversion of
`exec`. Later proofs cite these and do not unfold the meanings. -/

namespace Sys2Proof.Machine

section Conditions

variable (s : State)

theorem mayAccumulate_iff : mayAccumulate s = true ↔ s.st = .accumulating ∧ s.err = 0b00 := by
  simp [mayAccumulate]

theorem mayAccumulate_false : mayAccumulate s = false ↔ s.st ≠ .accumulating ∨ s.err ≠ 0b00 := by
  rw [← Bool.not_eq_true, mayAccumulate_iff, not_and_or]

theorem mayRead_iff : mayRead s = true ↔ s.st = .finalized ∧ s.err = 0b00 := by
  simp [mayRead]

theorem mayRead_false : mayRead s = false ↔ s.st ≠ .finalized ∨ s.err ≠ 0b00 := by
  rw [← Bool.not_eq_true, mayRead_iff, not_and_or]

theorem lengthFull_iff : lengthFull s = true ↔ 2 ^ 256 ≤ s.len.toNat + 8 := by
  simp [lengthFull]

theorem lengthFull_false : lengthFull s = false ↔ s.len.toNat + 8 < 2 ^ 256 := by
  rw [← Bool.not_eq_true, lengthFull_iff, not_le]

end Conditions

section Results

variable {s : State} {b : Byte}

theorem exec_init (s : State) : exec .init s = .next ((startComputation s).setResp (.ok none)) := rfl

theorem exec_add_accepted (hm : mayAccumulate s = true) (hl : lengthFull s = false) :
    exec (.add b) s = .next ((takeByte b s).setResp (.ok none)) := by
  simp [exec, execAdd, hm, hl, respond]

theorem exec_add_overflow (hm : mayAccumulate s = true) (hl : lengthFull s = true) :
    exec (.add b) s = .next (s.raised .lengthOverflow) := by
  simp [exec, execAdd, hm, hl, raise]

theorem exec_add_refused (hm : mayAccumulate s = false) : exec (.add b) s = .next (s.raised .invalidState) := by
  simp [exec, execAdd, hm, raise]

theorem exec_final_accepted (hm : mayAccumulate s = true) :
    exec .final s = .next ((finishComputation s).setResp (.ok none)) := by
  simp [exec, execFinal, hm, respond]

theorem exec_final_refused (hm : mayAccumulate s = false) : exec .final s = .next (s.raised .invalidState) := by
  simp [exec, execFinal, hm, raise]

theorem exec_digest_accepted (hm : mayRead s = true) : exec .digest s = .next (s.setResp (.ok (some (ser s.h)))) := by
  simp [exec, execDigest, hm, respond]

theorem exec_digest_refused (hm : mayRead s = false) : exec .digest s = .next (s.raised .invalidState) := by
  simp [exec, execDigest, hm, raise]

/-- Everything a command can do: six cases, with their conditions. -/
theorem exec_cases {i : Instr} {t : State} (h : exec i s = .next t) :
    (i = .init ∧ t = (startComputation s).setResp (.ok none)) ∨
    (∃ b, i = .add b ∧ mayAccumulate s = true ∧ lengthFull s = false ∧ t = (takeByte b s).setResp (.ok none)) ∨
    (∃ b, i = .add b ∧ mayAccumulate s = true ∧ lengthFull s = true ∧ t = s.raised .lengthOverflow) ∨
    (i = .final ∧ mayAccumulate s = true ∧ t = (finishComputation s).setResp (.ok none)) ∨
    (i = .digest ∧ mayRead s = true ∧ t = s.setResp (.ok (some (ser s.h)))) ∨
    (i ≠ .init ∧ (i = .digest → mayRead s = false) ∧ (i ≠ .digest → mayAccumulate s = false) ∧
      t = s.raised .invalidState) := by
  cases i with
  | init =>
    rw [exec_init, Host.Outcome.next.injEq] at h
    exact .inl ⟨rfl, h.symm⟩
  | add b =>
    cases hm : mayAccumulate s with
    | false =>
      rw [exec_add_refused hm, Host.Outcome.next.injEq] at h
      exact .inr (.inr (.inr (.inr (.inr ⟨nofun, nofun, fun _ => rfl, h.symm⟩))))
    | true =>
      cases hl : lengthFull s with
      | false =>
        rw [exec_add_accepted hm hl, Host.Outcome.next.injEq] at h
        exact .inr (.inl ⟨b, rfl, rfl, rfl, h.symm⟩)
      | true =>
        rw [exec_add_overflow hm hl, Host.Outcome.next.injEq] at h
        exact .inr (.inr (.inl ⟨b, rfl, rfl, rfl, h.symm⟩))
  | final =>
    cases hm : mayAccumulate s with
    | false =>
      rw [exec_final_refused hm, Host.Outcome.next.injEq] at h
      exact .inr (.inr (.inr (.inr (.inr ⟨nofun, nofun, fun _ => rfl, h.symm⟩))))
    | true =>
      rw [exec_final_accepted hm, Host.Outcome.next.injEq] at h
      exact .inr (.inr (.inr (.inl ⟨rfl, rfl, h.symm⟩)))
  | digest =>
    cases hm : mayRead s with
    | false =>
      rw [exec_digest_refused hm, Host.Outcome.next.injEq] at h
      exact .inr (.inr (.inr (.inr (.inr ⟨nofun, fun _ => rfl, fun h => absurd rfl h, h.symm⟩))))
    | true =>
      rw [exec_digest_accepted hm, Host.Outcome.next.injEq] at h
      exact .inr (.inr (.inr (.inr (.inl ⟨rfl, rfl, h.symm⟩))))

/-- A command never stops the machine. -/
theorem exec_goes_on (i : Instr) (s : State) : ∃ t, exec i s = .next t := by
  cases h : exec i s with
  | next t => exact ⟨t, rfl⟩
  | fault r => cases r
  | refused r =>
    cases i <;> simp only [exec, execInit, execAdd, execFinal, execDigest, respond, raise] at h <;>
      (repeat' split at h) <;> cases h

/-- The state after an accepted byte, field by field (rules R163 and R165). -/
theorem takeByte_eq (b : Byte) (s : State) :
    takeByte b s =
      if s.pos = 63 then
        { s with h := compress s.tables s.h (pack (s.buf.write s.pos.toNat b)), buf := Memory.zero, pos := 0, len := s.len + 8 }
      else { s with buf := s.buf.write s.pos.toNat b, pos := s.pos + 1, len := s.len + 8 } := by
  have hc : countAfterAppend s = Config.blockBytes ↔ s.pos = 63 := by
    simp only [countAfterAppend, Config.blockBytes]
    constructor
    · intro h
      exact BitVec.eq_of_toNat_eq (by simpa using h)
    · rintro h
      simp [h]
  unfold takeByte
  by_cases h : s.pos = 63
  · rw [if_pos (hc.2 h), if_pos h]
    rfl
  · rw [if_neg (mt hc.1 h), if_neg h]
    rfl

/-- The state after an accepted FINAL, field by field (rule R170). -/
theorem finishComputation_eq (s : State) :
    finishComputation s =
      { s with h := (pad s).h, buf := Memory.zero, pos := 0, len := 0, st := .finalized } := by
  refine State.ext_fields ?_ rfl rfl rfl rfl rfl ?_ ?_ ?_ <;> simp [finishComputation]

end Results

section HostMoves

variable {s t : State}

theorem takeByte_setHost (b : Byte) (s : State) (ms : List HostMove) :
    takeByte b (s.setHost ms) = (takeByte b s).setHost ms := by
  rw [takeByte_eq, takeByte_eq]
  by_cases h : s.pos = 63
  · rw [if_pos h, if_pos (by simpa using h)]; ext <;> simp
  · rw [if_neg h, if_neg (by simpa using h)]; ext <;> simp

theorem finishComputation_setHost (s : State) (ms : List HostMove) :
    finishComputation (s.setHost ms) = (finishComputation s).setHost ms := by
  rw [finishComputation_eq, finishComputation_eq, pad_setHost]
  ext <;> simp

theorem raised_setHost (e : CoreError) (s : State) (ms : List HostMove) :
    (s.setHost ms).raised e = (s.raised e).setHost ms := by
  ext <;> simp

theorem setResp_setHost (r : Response) (s : State) (ms : List HostMove) :
    (s.setHost ms).setResp r = (s.setResp r).setHost ms := by
  ext <;> simp

theorem startComputation_setHost (s : State) (ms : List HostMove) :
    startComputation (s.setHost ms) = (startComputation s).setHost ms := by
  ext <;> simp [startComputation]

/-- No command reads or writes the host's later moves. -/
theorem exec_setHost {i : Instr} (h : exec i s = .next t) (ms : List HostMove) :
    exec i (s.setHost ms) = .next (t.setHost ms) := by
  have hm : mayAccumulate (s.setHost ms) = mayAccumulate s := by simp [mayAccumulate, State.live]
  have hr : mayRead (s.setHost ms) = mayRead s := by simp [mayRead, State.live]
  have hl : lengthFull (s.setHost ms) = lengthFull s := by simp [lengthFull]
  obtain ⟨rfl, rfl⟩ | ⟨b, rfl, ha, hf, rfl⟩ | ⟨b, rfl, ha, hf, rfl⟩ | ⟨rfl, ha, rfl⟩ | ⟨rfl, ha, rfl⟩ |
    ⟨hi, hd, ha, rfl⟩ := exec_cases h
  · rw [exec_init, startComputation_setHost, setResp_setHost]
  · rw [exec_add_accepted (hm.trans ha) (hl.trans hf), takeByte_setHost, setResp_setHost]
  · rw [exec_add_overflow (hm.trans ha) (hl.trans hf), raised_setHost]
  · rw [exec_final_accepted (hm.trans ha), finishComputation_setHost, setResp_setHost]
  · rw [exec_digest_accepted (hr.trans ha), setResp_setHost, State.setHost_h]
  · cases i with
    | init => exact absurd rfl hi
    | add b => rw [exec_add_refused (hm.trans (ha nofun)), raised_setHost]
    | final => rw [exec_final_refused (hm.trans (ha nofun)), raised_setHost]
    | digest => rw [exec_digest_refused (hr.trans (hd rfl)), raised_setHost]

end HostMoves

end Sys2Proof.Machine
end

