-- ==== Sys2Proof/Laws/PerInstr.lean ====
section
/-! SUPPORT. Statements made once per command of the opcode map. -/

namespace Sys2Proof.Laws

/-- Family Fields: the two fields of a command's word are the command's fields, and they pass both checks (rules R70 to R74). -/
def Fields.Statement (i : Instr) : Prop :=
  splitWord (encode i) = i.fields ∧ i.fields.opAssigned = true ∧ i.fields.operandLegal = true

theorem Fields.init : Fields.Statement .init := ⟨rfl, rfl, rfl⟩

theorem Fields.add (b : Byte) : Fields.Statement (.add b) := by
  refine ⟨?_, rfl, rfl⟩
  revert b
  decide +kernel

theorem Fields.final : Fields.Statement .final := ⟨rfl, rfl, rfl⟩

theorem Fields.digest : Fields.Statement .digest := ⟨rfl, rfl, rfl⟩

end Sys2Proof.Laws
end

