-- ==== Sys2Proof/Laws/Step.lean ====
section
/-! SUPPORT. Everything a step can do, said once, and a transaction of the host as a step. -/

namespace Sys2Proof.Machine

variable {s t : State}

theorem step_idle (h : s.host = []) : step s = .next s := by
  simp [step, h, idle]

theorem step_command {w : CommandWord} {rest : List HostMove} {i : Instr} (h : s.host = .command w :: rest)
    (hd : decode w = .ok i) : step s = exec i (s.setHost rest) := by
  simp [step, h, takeMove, issue, hd]

theorem step_reserved {w : CommandWord} {rest : List HostMove} {e : DecodeError} (h : s.host = .command w :: rest)
    (hd : decode w = .error e) : step s = .next ((s.setHost rest).raised .illegalCmd) := by
  simp [step, h, takeMove, issue, hd, raise]

theorem step_reset {rest : List HostMove} (h : s.host = .reset :: rest) :
    step s = .next (State.reset.setHost rest) := by
  simp [step, h, takeMove, performReset]

/-- Everything a step can do: idle, a command, a reserved word, reset. -/
theorem step_cases (h : step s = .next t) :
    (s.host = [] ∧ t = s) ∨
    (∃ w i rest, s.host = .command w :: rest ∧ decode w = .ok i ∧ exec i (s.setHost rest) = .next t) ∨
    (∃ w e rest, s.host = .command w :: rest ∧ decode w = .error e ∧ t = (s.setHost rest).raised .illegalCmd) ∨
    (∃ rest, s.host = .reset :: rest ∧ t = State.reset.setHost rest) := by
  match hh : s.host with
  | [] =>
    rw [step_idle hh, Host.Outcome.next.injEq] at h
    exact .inl ⟨rfl, h.symm⟩
  | .command w :: rest =>
    cases hd : decode w with
    | ok i =>
      rw [step_command hh hd] at h
      exact .inr (.inl ⟨w, i, rest, rfl, hd, h⟩)
    | error e =>
      rw [step_reserved hh hd, Host.Outcome.next.injEq] at h
      exact .inr (.inr (.inl ⟨w, e, rest, rfl, hd, h.symm⟩))
  | .reset :: rest =>
    rw [step_reset hh, Host.Outcome.next.injEq] at h
    exact .inr (.inr (.inr ⟨rest, rfl, h.symm⟩))

@[simp] theorem setHost_self (s : State) : s.setHost s.host = s := rfl

/-- A transaction runs the decoded command (rule R17). -/
theorem transact_command {w : CommandWord} {i : Instr} (hd : decode w = .ok i) (s : State) :
    transact w s = exec i s := step_command (s := present w s) rfl hd

/-- A transaction with a reserved word (rule R76). -/
theorem transact_reserved {w : CommandWord} {e : DecodeError} (hd : decode w = .error e) (s : State) :
    transact w s = .next (s.raised .illegalCmd) := step_reserved (s := present w s) rfl hd

end Sys2Proof.Machine
end

