-- ==== Sys2Proof/Laws/System.lean ====
section
/-! SUPPORT. What one step of a system does to its list of instances. -/

namespace Sys2Proof.Machine

/-- Where CORE's step goes on, so does the instance. -/
theorem stepOrStay_next {s t : State} (h : step s = .next t) : stepOrStay s = t := by
  simp only [stepOrStay, h]

/-- No step of a system adds or drops an instance. -/
@[simp] theorem System.length_stepAt (sys : System) (k : Nat) : (sys.stepAt k).length = sys.length := by
  simp [System.stepAt]

end Sys2Proof.Machine
end

