-- ==== Sys2Proof/Tests/Slice0.lean ====
section
/-! SUPPORT. Tests, with results taken from the spec (the file and section is named at each), and for every statement with
hypotheses a witness that meets them. -/

namespace Sys2Proof.Tests

open Sys2Proof.Machine

/-! ### Helpers: small states, and COMPRESS in a form the kernel evaluates fast -/

/-- Reset, but for the registers named. -/
def stateWith (st : DriverState) (err : BitVec 2) (pos : BitVec 6) (len : BitVec 256) : State :=
  { State.reset with st := st, err := err, pos := pos, len := len }

/-- The first `n` bytes of the message 0x00, 0x01, ... in BUF, as cells (index 0 holds 0x00, which has no cell). -/
def countingBuffer (n : Nat) : Memory := (List.range' 1 (n - 1)).map fun j => (j, BitVec.ofNat 8 j)

/-- The byte 0x61 `n` times in BUF. -/
def letterBuffer (n : Nat) : Memory := (List.range n).map fun j => (j, 0x61)

def fastC (t : Fin 8) (x : Byte) : Word := ror64 (crow0 (sboxBytes.getD x.toNat 0)) (8 * t.val)

theorem fastC_eq : Tables.built.C = fastC := by
  funext t x
  rw [built_C, built_S, fastC]

def fastLayer (a : Words) : Words := Words.ofFn fun i => xorOver fun t => fastC t (byteOf (a.get (i - t)) t)

theorem fastLayer_eq (a : Words) : layer Tables.built a = fastLayer a := by
  simp only [layer, fastLayer, fastC_eq]

def fastRound (p : RoundPair) (r : Fin 10) : RoundPair :=
  let l := fastLayer p.key
  let k' : Words := { l with w0 := l.w0 ^^^ rcgen fastC r.val }
  { key := k', state := xorWords (fastLayer p.state) k' }

theorem fastRound_eq : Machine.round Tables.built = fastRound := by
  funext p r
  simp only [Machine.round, keyRound, stateRound, fastLayer_eq, built_RC, fastC_eq, fastRound]

def fastCompress (h m : Words) : Words :=
  xorWords (xorWords h (Config.roundNumbers.foldl fastRound { key := h, state := xorWords m h }).state) m

theorem fastCompress_eq (h m : Words) : compress Tables.built h m = fastCompress h m := by
  simp only [compress, permute, fastRound_eq, fastCompress]

/-- The chaining value of the empty message's digest (95_test_vectors.md section 2.4). -/
def emptyDigestWords : Words :=
  ⟨0x19FA61D75522A466, 0x9B44E39C1D2E1726, 0xC530232130D407F8, 0x9AFEE0964997F7A7, 0x3E83BE698B288FEB, 0xCF88E3E03C4F0757,
    0xEA8964E59B63D937, 0x08B138CC42A66EB3⟩

/-! ### The checks of WellFormed.lean refuse ill-formed fields -/

/-- Check 1, on opcodes 0x00, 0x05 and 0xFF (30_encoding.md R76). -/
theorem test_opcode_check_refuses :
    (CommandFields.mk 0x00 0x00).opAssigned = false ∧ (CommandFields.mk 0x05 0x00).opAssigned = false ∧
      (CommandFields.mk 0xFF 0xFF).wellFormed = false := by decide

/-- Check 2, on the ends of the three reserved ranges (30_encoding.md R76). -/
theorem test_operand_check_refuses :
    (CommandFields.mk 0x01 0x01).operandLegal = false ∧ (CommandFields.mk 0x03 0xFF).operandLegal = false ∧
      (CommandFields.mk 0x04 0x80).wellFormed = false := by decide

theorem test_checks_accept :
    (CommandFields.mk 0x02 0xFF).wellFormed = true ∧ (CommandFields.mk 0x04 0x00).wellFormed = true := by decide

/-! ### Decoding: words written from the encoding column of 30_encoding.md R74, and 95_test_vectors.md section 2.8 -/

theorem test_decode_init : decode 0b0000000100000000 = .ok .init ∧ encode .init = 0b0000000100000000 := by decide

theorem test_decode_add :
    decode 0b0000001010000000 = .ok (.add 0x80) ∧ decode 0b0000001000000000 = .ok (.add 0x00) ∧
      encode (.add 0x61) = 0b0000001001100001 := by decide

theorem test_decode_final : decode 0b0000001100000000 = .ok .final ∧ encode .final = 0b0000001100000000 := by decide

theorem test_decode_digest : decode 0b0000010000000000 = .ok .digest ∧ encode .digest = 0b0000010000000000 := by decide

theorem test_reserved_words :
    ([0x0000, 0x0101, 0x01FF, 0x0301, 0x0480, 0x0500, 0x8100, 0xFFFF].all fun w =>
      (decode w).toOption.isNone) = true := by decide

theorem test_table_words :
    decodeTableWord 16 0x0100 = some .init ∧ decodeTableWord 16 0x0261 = some (.add 0x61) ∧
      decodeTableWord 16 0x0300 = some .final ∧ decodeTableWord 16 0x0400 = some .digest ∧
      decodeTableWord 16 0x0500 = none := by decide

/-- A placed word is the first thing CORE runs after reset: DIGEST there is refused (95_test_vectors.md E1 line 3). -/
theorem test_fetch_word_runs :
    (match step (State.reset.withFetchWord 16 0x0400) with
      | .next t => t.resp = some .invalidState && t.status = 0x04 && t.host.isEmpty
      | _ => false) = true := by decide

/-! ### The tables: 95_test_vectors.md sections 2.1 to 2.3 -/

theorem test_xtime :
    [0x00, 0x01, 0x02, 0x18, 0x40, 0x7F, 0x80, 0x8E, 0xC6, 0xE8, 0xFF].map xtime =
      [0x00, 0x02, 0x04, 0x30, 0x80, 0xFE, 0x1D, 0x01, 0x91, 0xCD, 0xE3] := by decide

theorem test_multiples :
    mult 0xC6 = { v1 := 0xC6, v2 := 0x91, v4 := 0x3F, v8 := 0x7E, v5 := 0xF9, v9 := 0xB8 } ∧
      mult 0xE8 = { v1 := 0xE8, v2 := 0xCD, v4 := 0x87, v8 := 0x13, v5 := 0x6F, v9 := 0xFB } := by decide

theorem test_row_zero :
    [0x00, 0x06, 0x81, 0xFF].map (Tables.built.C 0) =
      [0x18186018C07830D8, 0x0101040108050209, 0x0000000000000000, 0x8686228644A411C2] := by
  rw [fastC_eq]
  decide +kernel

/-- The two checks on a transcription of row 0 (95_test_vectors.md section 2.2). -/
theorem test_row_zero_checksums :
    ((List.range 256).foldl (fun v x => v ^^^ Tables.built.C 0 (BitVec.ofNat 8 x)) 0) = 0 ∧
      ((List.range 256).foldl (fun v x => v + Tables.built.C 0 (BitVec.ofNat 8 x)) 0) = 0xFFFFFFFFFFFFFF80 := by
  rw [fastC_eq]
  decide +kernel

theorem test_rows_rotate :
    (List.finRange 8).map (fun t => Tables.built.C t 0x02) =
      [0xC6C63FC67EF991B8, 0xB8C6C63FC67EF991, 0x91B8C6C63FC67EF9, 0xF991B8C6C63FC67E, 0x7EF991B8C6C63FC6,
        0xC67EF991B8C6C63F, 0x3FC67EF991B8C6C6, 0xC63FC67EF991B8C6] := by
  rw [fastC_eq]
  decide +kernel

theorem test_round_constant_one : Tables.built.RC 1 = 0x36A6D2F5796F9152 := by
  rw [built_RC, fastC_eq]
  decide +kernel

/-! ### The compression function: 95_test_vectors.md sections 2.3a and 2.4 -/

theorem test_byte_of_word :
    (List.finRange 8).map (byteOf 0x0123456789ABCDEF) = [0x01, 0x23, 0x45, 0x67, 0x89, 0xAB, 0xCD, 0xEF] := by decide

theorem test_layer_of_one_word :
    layer Tables.built ⟨0x0123456789ABCDEF, 0, 0, 0, 0, 0, 0, 0⟩ =
      ⟨0x1313C413EDFF5ED6, 0x6ED5D5FBD59306CF, 0x365F27271427501B, 0x2588C27878757892, 0xF9795B4E9F9FCE9F,
        0x691A70AA5B696931, 0x6D7EA23B84F47E7E, 0xD1EBD1B312C74AD1⟩ := by
  rw [fastLayer_eq]
  decide +kernel

theorem test_layer_of_repeated_bytes :
    layer Tables.built ⟨0, 0x0101010101010101, 0x0202020202020202, 0x0303030303030303, 0x0404040404040404,
        0x0505050505050505, 0x0606060606060606, 0x0707070707070707⟩ =
      ⟨0xCDCB1E7A7170C00F, 0x0FCDCB1E7A7170C0, 0xC00FCDCB1E7A7170, 0x70C00FCDCB1E7A71, 0x7170C00FCDCB1E7A,
        0x7A7170C00FCDCB1E, 0x1E7A7170C00FCDCB, 0xCB1E7A7170C00FCD⟩ := by
  rw [fastLayer_eq]
  decide +kernel

/-- Round 0 of the trace of the empty message: the new key, and the state with that key. -/
theorem test_round_zero :
    Machine.round Tables.built { key := Words.zero, state := ⟨0x8000000000000000, 0, 0, 0, 0, 0, 0, 0⟩ } 0 =
      { key := ⟨0x300BEEC0AF902967, 0x2828282828282828, 0x2828282828282828, 0x2828282828282828, 0x2828282828282828,
          0x2828282828282828, 0x2828282828282828, 0x2828282828282828⟩
        state := ⟨0x97ACC0678B3102CC, 0, 0, 0, 0, 0, 0, 0⟩ } := by
  rw [fastRound_eq]
  decide +kernel

theorem test_compress_empty_message :
    compress Tables.built Words.zero ⟨0x8000000000000000, 0, 0, 0, 0, 0, 0, 0⟩ = emptyDigestWords := by
  rw [fastCompress_eq]
  decide +kernel

theorem test_compress_second_block :
    compress Tables.built
        ⟨0xB0FB3B38309BF52C, 0xDADDD0620680E0DF, 0x55CC450F48B1959F, 0x9ECEF5D23CA08704, 0x50D4C91FE27600B2,
          0x092AD43888B34250, 0xA5246B1A92AFA299, 0xAC3C33B9E9D1761F⟩
        ⟨0x8000000000000000, 0, 0, 0, 0, 0, 0, 0x0000000000000200⟩ =
      ⟨0x5C3C6F524C8AE1E7, 0xA4F76B84977B1560, 0xE78EB568E2FD8D72, 0x699AD79186481BD4, 0x2B53AB39A0B741D9,
        0xC098A4ECB01F3ECC, 0xF3844CF1B73A9355, 0xEE5D496A2A1FB5B3⟩ := by
  rw [fastCompress_eq]
  decide +kernel

/-! ### Padding and block assembly: 95_test_vectors.md sections 2.6 and 2.7 -/

theorem test_pack :
    pack (countingBuffer 64) =
      ⟨0x0001020304050607, 0x08090A0B0C0D0E0F, 0x1011121314151617, 0x18191A1B1C1D1E1F, 0x2021222324252627,
        0x28292A2B2C2D2E2F, 0x3031323334353637, 0x38393A3B3C3D3E3F⟩ := by decide +kernel

theorem test_ser :
    (ser emptyDigestWords).toList.take 12 = [0x19, 0xFA, 0x61, 0xD7, 0x55, 0x22, 0xA4, 0x66, 0x9B, 0x44, 0xE3, 0x9C] ∧
      (ser emptyDigestWords).toList.drop 60 = [0x42, 0xA6, 0x6E, 0xB3] := by decide +kernel

/-- The largest length, and the length of 8192 bytes (section 2.6, LENENC). -/
theorem test_lenenc :
    pack (lenencInto (BitVec.ofNat 256 (2 ^ 256 - 8)) Memory.zero) =
        ⟨0, 0, 0, 0, 0xFFFFFFFFFFFFFFFF, 0xFFFFFFFFFFFFFFFF, 0xFFFFFFFFFFFFFFFF, 0xFFFFFFFFFFFFFFF8⟩ ∧
      pack (lenencInto 65536 Memory.zero) = ⟨0, 0, 0, 0, 0, 0, 0, 0x0000000000010000⟩ := by decide +kernel

/-- The block counts of rule R147. -/
theorem test_block_counts : [0, 31, 32, 63, 64, 95, 96].map blockCount = [1, 1, 2, 2, 2, 2, 3] := by decide

/-- The last block for 65 letters (section 2.6, n = 65). -/
theorem test_padded_message :
    padfn (List.replicate 65 0x61) =
      List.replicate 65 0x61 ++ [0x80] ++ List.replicate 60 0x00 ++ [0x02, 0x08] := by decide +kernel

/-- Sensitivity (43_hash_driver.md R184) for one pair: the messages 0x00 and 0x80 (95_test_vectors.md V14 and V15). -/
theorem test_sensitivity :
    [0x00, 0x80].map (fun b => (chainAfter Tables.built (padfn [b]) 1).w0) = [0x4D9444C212955963, 0x8E4FCC0B27E63896] := by
  simp only [chainAfter, fastCompress_eq]
  decide +kernel

/-! ### The commands, one step each -/

/-- INIT in a dead, finished computation (95_test_vectors.md E3 line 7): every register, and STATUS. -/
theorem test_init_recovers :
    (match exec .init { stateWith .finalized 0b01 5 40 with h := emptyDigestWords, buf := [(0, 0x61)] } with
      | .next t => t.status = 0x01 && t.h = Words.zero && t.buf = Memory.zero && t.pos = 0 && t.len = 0 &&
          t.resp = some (.ok none)
      | _ => false) = true := by decide

/-- The 64th ADD of program P3: H[0], and the rest of the state it leaves. -/
theorem test_add_fills_block :
    (match exec (.add 0x3F) { stateWith .accumulating 0b00 63 504 with buf := countingBuffer 63 } with
      | .next t => t.h.w0 = 0xB0FB3B38309BF52C && t.h.w7 = 0xAC3C33B9E9D1761F && t.buf = Memory.zero && t.pos = 0 &&
          t.len = 512 && t.status = 0x01 && t.resp = some (.ok none)
      | _ => false) = true := by
  rw [exec_add_accepted (by decide) (by decide), takeByte_eq, if_pos (by decide)]
  simp only [State.setResp, stateWith, State.reset_tables, fastCompress_eq]
  decide +kernel

/-- Rows 1 to 4 of 95_test_vectors.md section 2.10: response, LEN, POS, STATUS. -/
theorem test_add_at_the_length_limit :
    ([(0b00, 62, 2 ^ 256 - 16), (0b00, 63, 2 ^ 256 - 8), (0b01, 63, 2 ^ 256 - 8), (0b10, 63, 2 ^ 256 - 8)].map
      fun c : BitVec 2 × BitVec 6 × Nat =>
        match exec (.add 0x00) (stateWith .accumulating c.1 c.2.1 (BitVec.ofNat 256 c.2.2)) with
        | .next t => some (t.resp, t.len.toNat, t.pos, t.status)
        | _ => none) =
      [some (some (.ok none), 2 ^ 256 - 8, 63, 0x01), some (some .lengthOverflow, 2 ^ 256 - 8, 63, 0x09),
        some (some .invalidState, 2 ^ 256 - 8, 63, 0x05), some (some .invalidState, 2 ^ 256 - 8, 63, 0x0D)] := by
  decide +kernel

/-- FINAL of program P4, 32 letters, the two-block branch: H[0] and H[7]. -/
theorem test_final_two_blocks :
    (match exec .final { stateWith .accumulating 0b00 32 256 with buf := letterBuffer 32 } with
      | .next t => t.h.w0 = 0x661FE85E302A100B && t.h.w7 = 0x80A68A2FFF589DAB && t.buf = Memory.zero && t.pos = 0 &&
          t.len = 0 && t.status = 0x02 && t.resp = some (.ok none)
      | _ => false) = true := by
  rw [exec_final_accepted (by decide), finishComputation_eq, pad_h_two (by decide +kernel) (by decide)]
  simp only [State.setResp, stateWith, State.reset_tables, fastCompress_eq]
  decide +kernel

/-- FINAL of program P2, "abc", the one-block branch: H[0] and H[7]. -/
theorem test_final_one_block :
    (match exec .final { stateWith .accumulating 0b00 3 24 with buf := [(0, 0x61), (1, 0x62), (2, 0x63)] } with
      | .next t => t.h.w0 = 0x4E2448A4C6F486BB && t.h.w7 = 0xD225292076D4EEF5 && t.status = 0x02
      | _ => false) = true := by
  rw [exec_final_accepted (by decide), finishComputation_eq, pad_h_one (by decide) (by decide)]
  simp only [State.setResp, stateWith, State.reset_tables, fastCompress_eq]
  decide +kernel

/-- DIGEST of program P1, and the same bytes on the 512-bit bus (30_encoding.md R79). -/
theorem test_digest_answers :
    (match exec .digest { stateWith .finalized 0b00 0 0 with h := emptyDigestWords } with
      | .next t => t.status = 0x02 && t.resp.map Response.dout = some
          0x19FA61D75522A4669B44E39C1D2E1726C530232130D407F89AFEE0964997F7A73E83BE698B288FEBCF88E3E03C4F0757EA8964E59B63D93708B138CC42A66EB3
      | _ => false) = true := by decide +kernel

/-- DIGEST during accumulation (95_test_vectors.md E2 line 3). -/
theorem test_digest_kills :
    (match exec .digest (stateWith .accumulating 0b00 1 8) with
      | .next t => t.status = 0x05 && t.resp = some .invalidState && t.pos = 1 && t.len = 8
      | _ => false) = true := by decide

/-- A reserved word, in a dead computation (95_test_vectors.md E2 line 7). -/
theorem test_reserved_word_in_dead_computation :
    (match transact 0x0000 (stateWith .accumulating 0b01 1 8) with
      | .next t => t.status = 0x05 && t.resp = some .illegalCmd && t.pos = 1
      | _ => false) = true := by decide

/-! ### Scripts: the example of 30_encoding.md R82, and programs P1 and P5 of 95_test_vectors.md -/

theorem test_script :
    assemble ["INIT            ; 0x0100".toList, "ADD 0x61        ; 0x0261".toList, "ADD 'b'         ; 0x0262".toList,
        "0x0301          ; raw".toList, "FINAL           ; 0x0300".toList, "DIGEST          ; 0x0400".toList] =
      some [0x0100, 0x0261, 0x0262, 0x0301, 0x0300, 0x0400] := by decide +kernel

/-- A quoted text may hold any ASCII character, TAB and DEL too (30_encoding.md R83); ADD takes a printable one only (R82). -/
theorem test_script_ascii_text :
    parseLine (['A', 'D', 'D', 'S', ' ', textQuote, Char.ofNat 0x09, Char.ofNat 0x7F, textQuote]) = some [.adds [0x09, 0x7F]] ∧
      parseLine ['A', 'D', 'D', ' ', charQuote, Char.ofNat 0x7F, charQuote] = none := by decide

theorem test_script_pseudo_commands :
    assemble ["HASH \"abc\"".toList, "ADDS 0x61 0x62".toList, "HASH \"\"".toList] =
      some [0x0100, 0x0261, 0x0262, 0x0263, 0x0300, 0x0400, 0x0261, 0x0262, 0x0100, 0x0300, 0x0400] := by decide +kernel

/-! ### Witnesses: for every statement with hypotheses, a state and operands that meet them, at the ends of their ranges -/

/-- A dead Finalized state with a chaining value. -/
def deadFinalized : State := { stateWith .finalized 0b01 0 0 with h := emptyDigestWords }

/-- A live Finalized state with a chaining value. -/
def liveFinalized : State := { stateWith .finalized 0b00 0 0 with h := emptyDigestWords }

/-- A chain of ten rounds from a pair. -/
def roundChain (T : Tables) (p : RoundPair) : Nat → RoundPair
  | 0 => p
  | n + 1 => if h : n < 10 then Machine.round T (roundChain T p n) ⟨n, h⟩ else roundChain T p n

theorem witness_DecoderFollowsRule :
    ((0x0100 : CommandWord).extractLsb' 8 8 = 0x01 ∧ (0x0100 : CommandWord).extractLsb' 0 8 = 0x00) ∧
    (0x02FF : CommandWord).extractLsb' 8 8 = 0x02 ∧
    ((0x0300 : CommandWord).extractLsb' 8 8 = 0x03 ∧ (0x0300 : CommandWord).extractLsb' 0 8 = 0x00) ∧
    ((0x0400 : CommandWord).extractLsb' 8 8 = 0x04 ∧ (0x0400 : CommandWord).extractLsb' 0 8 = 0x00) ∧
    ¬ ((0x0101 : CommandWord).extractLsb' 8 8 = 0x01 ∧ (0x0101 : CommandWord).extractLsb' 0 8 = 0x00) ∧
    (0x0101 : CommandWord).extractLsb' 8 8 ≠ 0x02 ∧ (0x0101 : CommandWord).extractLsb' 8 8 ≠ 0x03 ∧
    (0x0101 : CommandWord).extractLsb' 8 8 ≠ 0x04 := by decide

theorem witness_OpcodeMapSelectsDecodedCommand :
    opcodeMap.map (fun r => r.selects 0x0200) = [false, true, false, false] := by decide

theorem witness_ReservedWordAnsweredIllegal :
    ([0x0000, 0x00FF, 0x0101, 0x01FF, 0x0301, 0x03FF, 0x0401, 0x04FF, 0x0500, 0xFFFF].all fun w =>
      match decode w with
      | .error _ => true
      | .ok _ => false) = true := by decide

theorem witness_DigestBusLayout : (63 : Nat) < 64 ∧ Response.illegalCmd.data = none ∧ (Response.ok none).data = none :=
  ⟨by decide, rfl, rfl⟩

/-- The ends of the ASCII codes, TAB, and the semicolon. -/
theorem witness_ScriptLinesStandForBytes :
    ([Char.ofNat 0x00, Char.ofNat 0x09, ';', Char.ofNat 0x7F].all fun c => c.toNat ≤ 0x7F ∧ c ≠ textQuote) = true := by decide

theorem witness_CommandLinesStandForWords :
    [] ∈ [[], ' ' :: ';' :: ['x'], ';' :: ['x']] ∧ 'F' ∈ [hexDigits.getD 15 '0', (hexDigits.getD 15 '0').toLower] ∧
      'f' ∈ [hexDigits.getD 15 '0', (hexDigits.getD 15 '0').toLower] ∧
      '0' ∈ [hexDigits.getD 0 '0', (hexDigits.getD 0 '0').toLower] ∧
      ([' ', '~', charQuote, ';'].all fun c => 0x20 ≤ c.toNat ∧ c.toNat ≤ 0x7E) = true := by decide

theorem witness_StepRunsDecodedCommand :
    ∃ (s : State) (w : CommandWord) (rest : List HostMove) (i : Instr), s.host = .command w :: rest ∧ decode w = .ok i :=
  ⟨present 0x02FF State.reset, _, _, .add 0xFF, rfl, (by decide : decode 0x02FF = .ok (.add 0xFF))⟩

theorem witness_StepAlwaysGoesOn : State.reset.host = [] := rfl

theorem witness_ResetMoveGivesResetValues : ({ deadFinalized with host := [.reset] } : State).host = .reset :: [] := rfl

theorem witness_TablesNeverChange :
    (∃ s t : State, s.host = [.reset] ∧ step s = .next t) ∧ (∃ s t : State, exec .final s = .next t) ∧
      ∃ s t : State, step s = .next t ∧ TablesBuilt s :=
  ⟨⟨_, _, witness_ResetMoveGivesResetValues, step_reset rfl⟩, ⟨_, _, exec_final_refused (s := State.reset) (by decide)⟩,
    ⟨_, _, step_idle (s := State.reset) rfl, rfl⟩⟩

theorem witness_LayerFullDiffusion :
    ∃ (a b : Words) (j t : Fin 8), (∀ j' t', (j' ≠ j ∨ t' ≠ t) → byteOf (a.get j') t' = byteOf (b.get j') t') ∧
      byteOf (a.get j) t ≠ byteOf (b.get j) t :=
  ⟨Words.zero, ⟨0, 0, 0, 0, 0, 0, 0, 1⟩, 7, 7, by decide +kernel, by decide +kernel⟩

theorem witness_CompressIsTenRoundsAndFeedForward (T : Tables) (h m : Words) :
    ∃ p : Nat → RoundPair, (p 0).key = h ∧ (∀ i, (p 0).state.get i = m.get i ^^^ h.get i) ∧
      ∀ r : Fin 10, p (r.val + 1) = Machine.round T (p r.val) r :=
  ⟨roundChain T { key := h, state := xorWords m h }, rfl, fun i => get_xorWords m h i, fun r => by simp [roundChain]⟩

theorem witness_LengthFieldIsBigEndian :
    ({ stateWith .accumulating 0b00 33 264 with buf := letterBuffer 33 } : State).buf.wf = true := by decide +kernel

/-- One block at 31 bytes, with no zero byte; two at 32, with 63. -/
theorem witness_PaddedMessageShape :
    (31 + 1 + 0 + 32) % 64 = 0 ∧ padZeros 31 = 0 ∧ 31 / 64 + (if 31 % 64 ≤ 31 then 1 else 2) = 1 ∧
      (32 + 1 + 63 + 32) % 64 = 0 ∧ padZeros 32 = 63 ∧ 32 / 64 + (if 32 % 64 ≤ 31 then 1 else 2) = 2 ∧
      32 < 95 ∧ 95 + 32 < 64 * blockCount 32 := by decide

theorem witness_InitIsResetIntoAccumulating :
    (∃ s t : State, TablesBuilt s ∧ exec .init s = .next t) ∧
      ∃ (i : Instr) (s t : State), exec i s = .next t ∧ t.st = .empty :=
  ⟨⟨deadFinalized, _, rfl, exec_init _⟩, ⟨.digest, State.reset, _, exec_digest_refused (by decide), rfl⟩⟩

theorem witness_AddTakesByte :
    ∀ p ∈ ([0, 62, 63] : List (BitVec 6)),
      (stateWith .accumulating 0b00 p 504).st = .accumulating ∧ (stateWith .accumulating 0b00 p 504).err = 0b00 ∧
        (stateWith .accumulating 0b00 p 504).len.toNat + 8 < 2 ^ 256 :=
  fun _ _ => ⟨rfl, rfl, (by decide : (504 : BitVec 256).toNat + 8 < 2 ^ 256)⟩

theorem witness_AddStoresOneByte :
    let s : State := { stateWith .accumulating 0b00 62 496 with buf := countingBuffer 62 }
    s.buf.wf = true ∧ s.st = .accumulating ∧ s.err = 0b00 ∧ s.len.toNat + 8 < 2 ^ 256 ∧ s.pos ≠ 63 := by
  refine ⟨by decide +kernel, rfl, rfl, by decide, by decide⟩

theorem witness_AddRefusedForState :
    State.reset.st ≠ .accumulating ∧ (stateWith .accumulating 0b10 0 0).err ≠ 0b00 := by decide

/-- The two lengths at the limit, and a state that has absorbed a message. -/
theorem witness_AddRefusedForLength :
    (stateWith .accumulating 0b00 63 (BitVec.ofNat 256 (2 ^ 256 - 8))).len.toNat = 2 ^ 256 - 8 ∧
      (stateWith .accumulating 0b00 62 (BitVec.ofNat 256 (2 ^ 256 - 16))).len.toNat = 2 ^ 256 - 16 ∧
      (stateWith .accumulating 0b00 62 (BitVec.ofNat 256 (2 ^ 256 - 16))).len.toNat + 8 < 2 ^ 256 ∧
      (2 ^ 256 - 8) % 8 = 0 ∧ Absorbed (stateWith .accumulating 0b00 0 0) [] :=
  ⟨by decide, by decide, by decide, by decide, ⟨rfl, rfl, rfl, fun _ _ => rfl, fun _ _ => rfl⟩⟩

/-- The two branches where they meet, POS = 31 and POS = 32, and the last position. -/
theorem witness_FinalPadsAndFinishes :
    (∀ p ∈ ([0, 31, 32, 63] : List (BitVec 6)),
      let s : State := { stateWith .accumulating 0b00 p 0 with buf := letterBuffer p.toNat }
      s.buf.wf = true ∧ s.st = .accumulating ∧ s.err = 0b00) ∧
      (31 : BitVec 6).toNat ≤ 31 ∧ 32 ≤ (32 : BitVec 6).toNat ∧
      ∃ (i : Instr) (s t : State), exec i s = .next t ∧ s.st = .finalized ∧ t.st ≠ .finalized := by
  refine ⟨by decide +kernel, by decide, by decide, .init, liveFinalized, _, exec_init _, rfl, by decide⟩

theorem witness_FinalRefused : State.reset.st ≠ .accumulating ∧ (stateWith .accumulating 0b01 0 0).err ≠ 0b00 := by decide

theorem witness_DigestReadsChainingValue : liveFinalized.st = .finalized ∧ liveFinalized.err = 0b00 := ⟨rfl, rfl⟩

theorem witness_DigestRefused : (stateWith .accumulating 0b00 0 0).st ≠ .finalized ∧ deadFinalized.err ≠ 0b00 := by decide

theorem witness_TransitionTable : ∃ (w : CommandWord) (e : DecodeError), decode w = .error e :=
  ⟨0x0500, .opcodeUnassigned 0x05, by decide⟩

theorem witness_ChainingValueWrittenOnlyBy :
    ∃ (i : Instr) (s t : State), exec i s = .next t ∧ t.h ≠ s.h :=
  ⟨.init, liveFinalized, _, exec_init _, by decide⟩

theorem witness_AddAbsorbsByte :
    let s := stateWith .accumulating 0b00 0 0
    s.buf.wf = true ∧ Absorbed s [] ∧ s.st = .accumulating ∧ s.err = 0b00 ∧ 8 * (([] : List Byte).length + 1) < 2 ^ 256 :=
  ⟨rfl, ⟨rfl, rfl, rfl, fun _ _ => rfl, fun _ _ => rfl⟩, rfl, rfl, by decide⟩

/-- A message of one byte, absorbed. -/
theorem witness_FinalGivesWhirlpool :
    let s : State := { stateWith .accumulating 0b00 1 8 with buf := [(0, 0x61)] }
    s.buf.wf = true ∧ Absorbed s [0x61] ∧ s.st = .accumulating ∧ s.err = 0b00 := by
  refine ⟨rfl, ⟨rfl, rfl, rfl, fun j hj => ?_, fun j hj => ?_⟩, rfl, rfl⟩
  · obtain rfl : j = 0 := Nat.lt_one_iff.1 hj
    rfl
  · exact if_neg (Nat.one_le_iff_ne_zero.1 hj)

theorem witness_HashReturnsWhirlpool : TablesBuilt deadFinalized ∧ ([0x61] : List Byte).length < 2 ^ 253 :=
  ⟨rfl, by decide⟩

theorem witness_DigestMayBeRepeated : liveFinalized.st = .finalized ∧ liveFinalized.err = 0b00 := ⟨rfl, rfl⟩

theorem witness_ResponsesDependOnCommandsOnly : TablesBuilt State.reset ∧ TablesBuilt deadFinalized := ⟨rfl, rfl⟩

theorem witness_HashesDoNotInterfere :
    TablesBuilt liveFinalized ∧ ([] : List Byte).length < 2 ^ 253 ∧ ([0x61, 0x62] : List Byte).length < 2 ^ 253 :=
  ⟨rfl, by decide, by decide⟩

theorem witness_AddsTakesEffectByteByByte :
    ∃ rs t, converse (addsWords [0x61]) State.reset = some (rs, t) ∧ 0 < [0x61].length ∧ rs.getD 0 (.ok none) ≠ .ok none :=
  ⟨[.invalidState], State.reset.raised .invalidState, rfl, by decide, by decide⟩

theorem witness_ResultExactlyWhenEndedWell : ∃ s t : State, exec .digest s = .next t ∧ s.endedWell = true :=
  ⟨liveFinalized, _, exec_digest_accepted (by decide), by decide⟩

/-- Each error, raised. -/
theorem witness_ErrorCausesExact :
    (∃ s t : State, exec .digest s = .next t ∧ t.resp = some .invalidState) ∧
      ∃ s t : State, exec (.add 0x00) s = .next t ∧ t.resp = some .lengthOverflow :=
  ⟨⟨deadFinalized, _, exec_digest_refused (by decide), rfl⟩,
    ⟨stateWith .accumulating 0b00 63 (BitVec.ofNat 256 (2 ^ 256 - 8)), _, exec_add_overflow (by decide) (by decide), rfl⟩⟩

theorem witness_RefusalsArePrecise :
    (∃ s t : State, exec .final s = .next t ∧ t.resp = some .invalidState) ∧
      ∃ s t : State, exec (.add 0xFF) s = .next t ∧ t.resp = some .lengthOverflow :=
  ⟨⟨liveFinalized, _, exec_final_refused (by decide), rfl⟩,
    ⟨stateWith .accumulating 0b00 63 (BitVec.ofNat 256 (2 ^ 256 - 8)), _, exec_add_overflow (by decide) (by decide), rfl⟩⟩

theorem witness_DeadUntilInit :
    deadFinalized.err ≠ 0b00 ∧ ([0x0400, 0x0000, 0x0261].all fun w => (decode w).toOption ≠ some .init) = true ∧
      ∃ (i : Instr) (s t : State), exec i s = .next t ∧ s.err ≠ 0b00 ∧ t.err = 0b00 :=
  ⟨by decide, by decide, .init, deadFinalized, _, exec_init _, by decide, rfl⟩

theorem witness_BothFlagsOnlyAfterOverflow :
    ∃ s t : State, step s = .next t ∧ t.err = 0b11 ∧ s.err ≠ 0b11 :=
  ⟨present 0x0300 (stateWith .accumulating 0b10 63 0), _,
    (step_command rfl (by decide : decode 0x0300 = .ok .final)).trans (exec_final_refused (by decide)), by decide, by decide⟩

theorem witness_RegistersDoNotLeak :
    ∃ s s' t t' : State, s.st = s'.st ∧ s.err = s'.err ∧ (s.len.toNat + 8 < 2 ^ 256 ↔ s'.len.toNat + 8 < 2 ^ 256) ∧
      exec .digest s = .next t ∧ exec .digest s' = .next t' ∧ s.h ≠ s'.h :=
  ⟨liveFinalized, stateWith .finalized 0b00 0 0, _, _, rfl, rfl, Iff.rfl, exec_digest_accepted (by decide),
    exec_digest_accepted (by decide), by decide⟩

/-- Two instances, one of them with a word to take. -/
theorem witness_InstancesCommute :
    (0 : Nat) ≠ 1 ∧ ∃ (sys : Sys2Proof.Machine.System) (s s' : State), sys[0]? = some s ∧ sys[1]? = some s' ∧ s.host ≠ [] ∧
      [1, 0, 0].count 0 = 2 :=
  ⟨by decide, [present 0x0100 deadFinalized, liveFinalized], _, _, rfl, rfl, List.cons_ne_nil _ _, by decide⟩

/-- The buffer of an accumulating state, canonical, and a step from it. -/
theorem witness_BufferStaysCanonical :
    ∃ s t : State, s.buf.wf = true ∧ step s = .next t :=
  ⟨present 0x0261 { stateWith .accumulating 0b00 33 264 with buf := letterBuffer 33 }, _, by decide +kernel,
    (step_command rfl (by decide : decode 0x0261 = .ok (.add 0x61))).trans (exec_add_accepted (by decide) (by decide))⟩

/-- One byte absorbed, from INIT: the state the two invariants are shown of. -/
def oneByteIn : State := present 0x0300 { stateWith .accumulating 0b00 1 8 with buf := [(0, 0x61)] }

theorem oneByteIn_bufferInv : BufferInv oneByteIn where
  bufWf := rfl
  zeroTail _ hj := if_neg (Nat.one_le_iff_ne_zero.1 hj)
  lenWhole := rfl
  posLen := rfl
  quiet h := absurd rfl h
  emptyH h := by cases h
  loOnly _ := rfl

theorem witness_BufferInvariantKept : ∃ s t : State, BufferInv s ∧ step s = .next t :=
  ⟨oneByteIn, _, oneByteIn_bufferInv,
    (step_command rfl (by decide : decode 0x0300 = .ok .final)).trans (exec_final_accepted (by decide))⟩

theorem witness_MessageInvariantKept : ∃ s t : State, Inv s ∧ step s = .next t := by
  refine ⟨oneByteIn, _, ⟨rfl, oneByteIn_bufferInv, fun _ => ⟨[0x61], ?_⟩, fun h => ?_⟩,
    (step_command rfl (by decide : decode 0x0300 = .ok .final)).trans (exec_final_accepted (by decide))⟩
  · refine ⟨rfl, rfl, rfl, fun j hj => ?_, oneByteIn_bufferInv.zeroTail⟩
    obtain rfl : j = 0 := Nat.lt_one_iff.1 hj
    rfl
  · cases h

end Sys2Proof.Tests
end

section
/-! PROOFS. The family 00_scope.md: what a step of CORE takes (rule R17). -/

namespace Sys2Proof.Machine

/-- Settles O10: `step_command`, with `setHost` read as the update of the queue. -/
theorem stepRunsDecodedCommand : Obligations.StepRunsDecodedCommand := by
  intro s w rest i hhost hdecode
  exact step_command hhost hdecode

end Sys2Proof.Machine
end

section
/-! PROOFS. The family 10_state.md: what every step keeps of the tables, the registers and BUF (rules R20 to R38). -/

namespace Sys2Proof.Machine

/-! ### The registers after INIT, an accepted byte and FINAL -/

section Fields

variable (s : State) (b : Byte)

@[simp] theorem startComputation_tables : (startComputation s).tables = s.tables := (rfl)
@[simp] theorem startComputation_h : (startComputation s).h = Words.zero := (rfl)
@[simp] theorem startComputation_buf : (startComputation s).buf = Memory.zero := (rfl)
@[simp] theorem startComputation_pos : (startComputation s).pos = 0 := (rfl)
@[simp] theorem startComputation_len : (startComputation s).len = 0 := (rfl)
@[simp] theorem startComputation_st : (startComputation s).st = .accumulating := (rfl)
@[simp] theorem startComputation_err : (startComputation s).err = 0b00 := (rfl)

@[simp] theorem finishComputation_tables : (finishComputation s).tables = s.tables := by rw [finishComputation_eq]
@[simp] theorem finishComputation_h : (finishComputation s).h = (pad s).h := (rfl)
@[simp] theorem finishComputation_buf : (finishComputation s).buf = Memory.zero := (rfl)
@[simp] theorem finishComputation_pos : (finishComputation s).pos = 0 := (rfl)
@[simp] theorem finishComputation_len : (finishComputation s).len = 0 := (rfl)
@[simp] theorem finishComputation_st : (finishComputation s).st = .finalized := (rfl)
@[simp] theorem finishComputation_err : (finishComputation s).err = s.err := by rw [finishComputation_eq]

@[simp] theorem takeByte_tables : (takeByte b s).tables = s.tables := by rw [takeByte_eq]; split <;> rfl
@[simp] theorem takeByte_st : (takeByte b s).st = s.st := by rw [takeByte_eq]; split <;> rfl
@[simp] theorem takeByte_err : (takeByte b s).err = s.err := by rw [takeByte_eq]; split <;> rfl
@[simp] theorem takeByte_len : (takeByte b s).len = s.len + 8 := by rw [takeByte_eq]; split <;> rfl

variable {s}

/-- A byte that does not fill the block leaves H alone (rule R25). -/
theorem takeByte_h_of_room (h : s.pos ≠ 63) : (takeByte b s).h = s.h := by rw [takeByte_eq, if_neg h]

/-- The byte that fills the block compresses it (rule R165). -/
theorem takeByte_h_of_full (h : s.pos = 63) :
    (takeByte b s).h = compress s.tables s.h (pack (s.buf.write s.pos.toNat b)) := by rw [takeByte_eq, if_pos h]

theorem takeByte_buf_of_room (h : s.pos ≠ 63) : (takeByte b s).buf = s.buf.write s.pos.toNat b := by
  rw [takeByte_eq, if_neg h]

theorem takeByte_buf_of_full (h : s.pos = 63) : (takeByte b s).buf = Memory.zero := by rw [takeByte_eq, if_pos h]

/-- POS counts modulo 64 (rules R141 and R142). -/
theorem takeByte_pos_toNat : (takeByte b s).pos.toNat = (s.pos.toNat + 1) % 64 := by
  rw [takeByte_eq]
  split
  · rename_i h
    simp [h]
  · exact BitVec.toNat_add s.pos 1

/-- Where ADD is not refused for length, LEN counts up without wrapping (rule R166). -/
theorem takeByte_len_toNat (h : s.len.toNat + 8 < 2 ^ 256) : (takeByte b s).len.toNat = s.len.toNat + 8 := by
  rw [takeByte_len]
  exact BitVec.toNat_add_of_lt h

theorem pos_eq_63_iff : s.pos = 63 ↔ s.pos.toNat = 63 := (BitVec.toNat_inj (y := (63 : BitVec 6))).symm

end Fields

/-! ### One induction step for all invariants -/

/-- The registers a property of CORE speaks of are alike: the two states differ in ERR, the response and the queue at most, and LO is
newly set in Accumulating only (rules R30 and R192). -/
structure SameRegisters (s t : State) : Prop where
  tables : t.tables = s.tables
  h : t.h = s.h
  buf : t.buf = s.buf
  pos : t.pos = s.pos
  len : t.len = s.len
  st : t.st = s.st
  lo : t.loFlag = true → s.loFlag = true ∨ s.st = .accumulating

theorem sameRegisters_setHost (s : State) (ms : List HostMove) : SameRegisters s (s.setHost ms) :=
  ⟨rfl, rfl, rfl, rfl, rfl, rfl, .inl⟩

theorem sameRegisters_setResp (s : State) (r : Response) : SameRegisters s (s.setResp r) :=
  ⟨rfl, rfl, rfl, rfl, rfl, rfl, .inl⟩

/-- An error other than LENGTH_OVERFLOW does not set LO (rule R190). -/
theorem sameRegisters_raised (s : State) {e : CoreError} (h : e = .lengthOverflow → s.st = .accumulating) :
    SameRegisters s (s.raised e) where
  tables := rfl
  h := rfl
  buf := rfl
  pos := rfl
  len := rfl
  st := rfl
  lo hlo := by
    cases e with
    | lengthOverflow => exact .inr (h rfl)
    | invalidState => left; simpa [errAfter, CoreError.flag, flagIS] using hlo
    | illegalCmd => left; simpa [errAfter, CoreError.flag] using hlo

/-- What a property has to be kept by for every step to keep it: reset has it, and it passes through INIT, an accepted byte, an
accepted FINAL, and whatever leaves the registers alone. -/
structure KeptByOperations (P : State → Prop) : Prop where
  reset : P State.reset
  same : ∀ {s t}, SameRegisters s t → P s → P t
  start : ∀ {s}, P s → P (startComputation s)
  take : ∀ {s} (b : Byte), s.st = .accumulating → s.len.toNat + 8 < 2 ^ 256 → P s → P (takeByte b s)
  finish : ∀ {s}, s.st = .accumulating → s.err = 0b00 → P s → P (finishComputation s)

/-- Every command keeps such a property. -/
theorem KeptByOperations.exec {P : State → Prop} (hP : KeptByOperations P) {i : Instr} {s t : State}
    (h : Machine.exec i s = .next t) (hs : P s) : P t := by
  obtain ⟨-, rfl⟩ | ⟨b, -, hm, hl, rfl⟩ | ⟨b, -, hm, -, rfl⟩ | ⟨-, hm, rfl⟩ | ⟨-, -, rfl⟩ | ⟨-, -, -, rfl⟩ := exec_cases h
  · exact hP.same (sameRegisters_setResp _ _) (hP.start hs)
  · exact hP.same (sameRegisters_setResp _ _)
      (hP.take b ((mayAccumulate_iff s).1 hm).1 ((lengthFull_false s).1 hl) hs)
  · exact hP.same (sameRegisters_raised s fun _ => ((mayAccumulate_iff s).1 hm).1) hs
  · obtain ⟨hst, herr⟩ := (mayAccumulate_iff s).1 hm
    exact hP.same (sameRegisters_setResp _ _) (hP.finish hst herr hs)
  · exact hP.same (sameRegisters_setResp _ _) hs
  · exact hP.same (sameRegisters_raised s nofun) hs

/-- Every step keeps such a property. -/
theorem KeptByOperations.step {P : State → Prop} (hP : KeptByOperations P) {s t : State} (h : Machine.step s = .next t)
    (hs : P s) : P t := by
  obtain ⟨-, rfl⟩ | ⟨_, _, rest, -, -, hexec⟩ | ⟨_, _, rest, -, -, rfl⟩ | ⟨rest, -, rfl⟩ := step_cases h
  · exact hs
  · exact hP.exec hexec (hP.same (sameRegisters_setHost s rest) hs)
  · exact hP.same (sameRegisters_raised _ nofun) (hP.same (sameRegisters_setHost s rest) hs)
  · exact hP.same (sameRegisters_setHost _ rest) hP.reset

/-! ### The tables (rule R24) -/

theorem tablesBuilt_kept : KeptByOperations TablesBuilt where
  reset := rfl
  same h hs := h.tables.trans hs
  start hs := hs
  take b _ _ hs := (takeByte_tables _ b).trans hs
  finish _ _ hs := (finishComputation_tables _).trans hs

/-- No command writes a table. -/
theorem exec_tables {i : Instr} {s t : State} (h : exec i s = .next t) : t.tables = s.tables := by
  obtain ⟨-, rfl⟩ | ⟨b, -, -, -, rfl⟩ | ⟨b, -, -, -, rfl⟩ | ⟨-, -, rfl⟩ | ⟨-, -, rfl⟩ | ⟨-, -, -, rfl⟩ := exec_cases h <;>
    simp

/-- Settles O18: a reset step answers `State.reset`, `exec_tables`, and the induction over steps. -/
theorem tablesNeverChange : Obligations.TablesNeverChange := by
  refine ⟨fun s t rest hhost hstep => ?_, fun i s t => exec_tables, fun s t => tablesBuilt_kept.step⟩
  rw [step_reset hhost, Host.Outcome.next.injEq] at hstep
  exact hstep ▸ rfl

/-! ### The chaining value (rules R25 and R39) -/

/-- Settles O38: of the six cases of a command, the other three and a byte that does not fill the block leave H as it is. -/
theorem chainingValueWrittenOnlyBy : Obligations.ChainingValueWrittenOnlyBy := by
  intro i s t hexec hne
  obtain ⟨hi, -⟩ | ⟨b, hi, -, -, rfl⟩ | ⟨b, -, -, -, rfl⟩ | ⟨hi, -⟩ | ⟨-, -, rfl⟩ | ⟨-, -, -, rfl⟩ := exec_cases hexec
  · exact .inl hi
  · refine .inr (.inl ⟨b, hi, ?_⟩)
    by_contra hroom
    exact hne (takeByte_h_of_room b hroom)
  · exact absurd (State.raised_h s _) hne
  · exact .inr (.inr hi)
  · exact absurd (State.setResp_h s _) hne
  · exact absurd (State.raised_h s _) hne

/-! ### The invariant of the registers and BUF (rules R36 and R149) -/

/-- Nothing buffered or counted, and LO set in Accumulating only: the invariant holds. -/
theorem bufferInv_of_cleared {s : State} (hbuf : s.buf = Memory.zero) (hpos : s.pos = 0) (hlen : s.len = 0)
    (hempty : s.st = .empty → s.h = Words.zero) (hlo : s.loFlag = true → s.st = .accumulating) : BufferInv s where
  bufWf := by rw [hbuf, Memory.wf_zero]
  zeroTail j _ := by rw [State.bufRead_def, hbuf, Memory.read_zero]
  lenWhole := by rw [hlen]; rfl
  posLen := by rw [hpos, hlen]; rfl
  quiet _ := ⟨hbuf, hpos, hlen⟩
  emptyH := hempty
  loOnly := hlo

theorem bufferInv_reset : BufferInv State.reset := bufferInv_of_cleared rfl rfl rfl (fun _ => rfl) nofun

theorem bufferInv_start (s : State) : BufferInv (startComputation s) :=
  bufferInv_of_cleared rfl rfl rfl nofun fun _ => rfl

theorem bufferInv_same {s t : State} (h : SameRegisters s t) (hs : BufferInv s) : BufferInv t where
  bufWf := by rw [h.buf]; exact hs.bufWf
  zeroTail := by simpa [h.buf, h.pos] using hs.zeroTail
  lenWhole := by rw [h.len]; exact hs.lenWhole
  posLen := by rw [h.pos, h.len]; exact hs.posLen
  quiet := by rw [h.st, h.buf, h.pos, h.len]; exact hs.quiet
  emptyH := by rw [h.st, h.h]; exact hs.emptyH
  loOnly hlo := h.st.trans ((h.lo hlo).elim hs.loOnly id)

theorem wf_takeByte {s : State} (hs : s.buf.wf = true) (b : Byte) : (takeByte b s).buf.wf = true := by
  by_cases h : s.pos = 63
  · rw [takeByte_buf_of_full b h, Memory.wf_zero]
  · rw [takeByte_buf_of_room b h]
    exact Memory.wf_write hs s.pos.isLt b

/-- Behind the byte just taken BUF is zero, as it was behind POS. -/
theorem zeroTail_takeByte {s : State} (hs : s.buf.wf = true) (htail : ∀ j, s.pos.toNat ≤ j → s.bufRead j = 0x00) (b : Byte)
    (j : Nat) (hj : (takeByte b s).pos.toNat ≤ j) : (takeByte b s).bufRead j = 0x00 := by
  rw [takeByte_pos_toNat] at hj
  rw [State.bufRead_def]
  by_cases h : s.pos = 63
  · rw [takeByte_buf_of_full b h, Memory.read_zero]
  · have hlt := s.pos.isLt
    rw [pos_eq_63_iff] at h
    rw [takeByte_buf_of_room b (mt pos_eq_63_iff.1 h), Memory.read_write hs, if_neg (by omega)]
    exact htail j (by omega)

theorem bufferInv_take {s : State} (b : Byte) (hst : s.st = .accumulating) (hlen : s.len.toNat + 8 < 2 ^ 256)
    (hs : BufferInv s) : BufferInv (takeByte b s) where
  bufWf := wf_takeByte hs.bufWf b
  zeroTail := zeroTail_takeByte hs.bufWf hs.zeroTail b
  lenWhole := by
    rw [takeByte_len_toNat b hlen]
    have := hs.lenWhole
    omega
  posLen := by
    rw [takeByte_len_toNat b hlen, takeByte_pos_toNat]
    have := hs.posLen
    omega
  quiet h := absurd (by rw [takeByte_st, hst]) h
  emptyH h := by rw [takeByte_st, hst] at h; cases h
  loOnly _ := by rw [takeByte_st, hst]

/-- FINAL clears what it counted; it is accepted in a live computation only, where LO is clear. -/
theorem bufferInv_finish {s : State} (herr : s.err = 0b00) : BufferInv (finishComputation s) :=
  bufferInv_of_cleared rfl rfl rfl nofun fun h => by simp [herr] at h

theorem bufferInv_kept : KeptByOperations BufferInv where
  reset := bufferInv_reset
  same := bufferInv_same
  start _ := bufferInv_start _
  take := bufferInv_take
  finish _ herr _ := bufferInv_finish herr

/-- Settles O55: the induction over steps. -/
theorem bufferInvariantKept : Obligations.BufferInvariantKept := fun _ _ hs hstep => bufferInv_kept.step hstep hs

end Sys2Proof.Machine
end

section
/-! PROOFS. The family 10_state.md: what every step keeps of the absorbed message (rules R36, R147, R167 and R172). -/

namespace Sys2Proof.Machine

/-! ### P(m) byte by byte (rule R147) -/

/-- The zero bytes make the padded message whole blocks. -/
theorem padZeros_fills (n : Nat) : n + 1 + padZeros n + 32 = 64 * blockCount n := by
  simp only [padZeros, blockCount, Config.lenFieldBytes, Config.blockBytes]
  omega

/-- The length field shares the block of the mark when that holds at most 31 message bytes, and takes one more otherwise. -/
theorem blockCount_eq (n : Nat) : blockCount n = n / 64 + if n % 64 ≤ 31 then 1 else 2 := by
  simp only [padZeros, blockCount, Config.lenFieldBytes, Config.blockBytes]
  split <;> omega

@[simp] theorem length_be256 (v : Nat) : (be256 v).length = 32 := by
  simp [be256, Config.lenFieldBytes]

theorem getD_be256 (v : Nat) {k : Nat} (hk : k < 32) :
    (be256 v).getD k 0x00 = byteOfField 32 (BitVec.ofNat 256 v) k := by
  rw [List.getD_eq_getElem _ _ (by rwa [length_be256])]
  simp [be256, Config.lenFieldBytes]

theorem getD_padfn_message (m : List Byte) {j : Nat} (hj : j < m.length) : (padfn m).getD j 0x00 = m.getD j 0x00 := by
  rw [padfn, List.append_assoc, List.getD_append _ _ _ _ hj]

theorem getD_padfn_mark (m : List Byte) : (padfn m).getD m.length 0x00 = 0x80 := by
  rw [padfn, List.append_assoc, List.getD_append_right _ _ _ _ le_rfl, Nat.sub_self]
  rfl

theorem getD_padfn_zero (m : List Byte) {j : Nat} (hm : m.length < j) (hj : j + 32 < 64 * blockCount m.length) :
    (padfn m).getD j 0x00 = 0x00 := by
  have hfill := padZeros_fills m.length
  obtain ⟨z, rfl⟩ := Nat.exists_eq_add_of_lt hm
  rw [padfn, List.append_assoc, List.append_assoc, List.getD_append_right _ _ _ _ (by omega), Nat.add_assoc,
    Nat.add_sub_cancel_left, List.singleton_append, List.getD_cons_succ,
    List.getD_append _ _ _ _ (by rw [List.length_replicate]; omega), List.getD_replicate _ (by omega)]

theorem getD_padfn_length (m : List Byte) {k : Nat} (hk : k < 32) :
    (padfn m).getD (64 * blockCount m.length - 32 + k) 0x00 = byteOfField 32 (BitVec.ofNat 256 (8 * m.length)) k := by
  have hlen : (m ++ ([0x80] ++ List.replicate (padZeros m.length) (0x00 : Byte))).length = 64 * blockCount m.length - 32 := by
    rw [← padZeros_fills]
    simp only [List.length_append, List.length_replicate, List.length_singleton]
    omega
  rw [padfn, ← hlen, List.getD_append_right _ _ _ _ (by omega), Nat.add_sub_cancel_left, getD_be256 _ hk]

/-! ### The chaining value of the first blocks -/

/-- The chaining value after `n` blocks is a function of the first `64 n` bytes (rule R147). -/
theorem chainAfter_congr (T : Tables) {p q : List Byte} (n : Nat) (h : ∀ j, j < 64 * n → p.getD j 0x00 = q.getD j 0x00) :
    chainAfter T p n = chainAfter T q n := by
  induction n with
  | zero => rfl
  | succ n ih =>
    rw [chainAfter, chainAfter, ih fun j hj => h j (by omega)]
    refine congrArg (compress T _) (packBytes_congr fun k hk => h _ ?_)
    simp only [Config.blockBytes]
    omega

/-- Bytes behind the whole blocks of a message do not reach their chaining value. -/
theorem chainAfter_append (T : Tables) (m r : List Byte) :
    chainAfter T (m ++ r) (m.length / 64) = chainAfter T m (m.length / 64) :=
  chainAfter_congr T _ fun j hj => List.getD_append _ _ _ _ (by omega)

/-- Nor does padding. -/
theorem chainAfter_padfn (T : Tables) (m : List Byte) :
    chainAfter T (padfn m) (m.length / 64) = chainAfter T m (m.length / 64) :=
  chainAfter_congr T _ fun j hj => getD_padfn_message m (by omega)

/-! ### What has been absorbed -/

theorem absorbed_start (s : State) : Absorbed (startComputation s) [] :=
  ⟨rfl, rfl, rfl, fun _ _ => rfl, fun _ _ => rfl⟩

theorem absorbed_same {s t : State} {m : List Byte} (h : SameRegisters s t) (hs : Absorbed s m) : Absorbed t m where
  len := by rw [h.len]; exact hs.len
  pos := by rw [h.pos]; exact hs.pos
  chain := by rw [h.h, h.tables]; exact hs.chain
  head := by simpa [h.buf, h.pos] using hs.head
  tail := by simpa [h.buf, h.pos] using hs.tail

section Take

variable {s : State} {m : List Byte} (hwf : s.buf.wf = true) (hs : Absorbed s m) (b : Byte)
include hwf hs

/-- BUF with the byte stored at POS holds the bytes of the longer message after its whole blocks so far. -/
theorem read_write_absorbed {j : Nat} (hj : j ≤ s.pos.toNat) :
    (s.buf.write s.pos.toNat b).read j = (m ++ [b]).getD (64 * (m.length / 64) + j) 0x00 := by
  have hpos := hs.pos
  rw [Memory.read_write hwf]
  split
  · rw [List.getD_append_right _ _ _ _ (by omega), show 64 * (m.length / 64) + j - m.length = 0 by omega]
    rfl
  · rw [List.getD_append _ _ _ _ (by omega)]
    exact hs.head j (by omega)

/-- H after the byte is the chaining value of the longer message: the same where the block has room, one compression further where
the byte fills it. -/
theorem chain_takeByte :
    (takeByte b s).h = chainAfter s.tables (m ++ [b]) ((m ++ [b]).length / 64) := by
  have hpos := hs.pos
  rw [List.length_append, List.length_singleton]
  by_cases h : s.pos = 63
  · have h63 := pos_eq_63_iff.1 h
    rw [takeByte_h_of_full b h, show (m.length + 1) / 64 = m.length / 64 + 1 by omega, chainAfter, chainAfter_append,
      ← hs.chain]
    exact congrArg (compress s.tables s.h) (packBytes_congr fun j hj => read_write_absorbed hwf hs b (by omega))
  · have h63 := mt pos_eq_63_iff.2 h
    have hlt := s.pos.isLt
    rw [takeByte_h_of_room b h, show (m.length + 1) / 64 = m.length / 64 by omega, chainAfter_append, hs.chain]

/-- BUF after the byte holds the bytes of the longer message after its last whole block. -/
theorem head_takeByte {j : Nat} (hj : j < (takeByte b s).pos.toNat) :
    (takeByte b s).bufRead j = (m ++ [b]).getD (64 * ((m ++ [b]).length / 64) + j) 0x00 := by
  have hpos := hs.pos
  have hlt := s.pos.isLt
  rw [takeByte_pos_toNat] at hj
  have h63 : s.pos.toNat ≠ 63 := by omega
  rw [List.length_append, List.length_singleton, State.bufRead_def, takeByte_buf_of_room b (mt pos_eq_63_iff.1 h63),
    show (m.length + 1) / 64 = m.length / 64 by omega]
  exact read_write_absorbed hwf hs b (by omega)

/-- An accepted byte is absorbed behind the message (rule R167). -/
theorem absorbed_take (hlen : s.len.toNat + 8 < 2 ^ 256) : Absorbed (takeByte b s) (m ++ [b]) where
  len := by
    rw [takeByte_len_toNat b hlen, hs.len, List.length_append, List.length_singleton]
    omega
  pos := by
    rw [takeByte_pos_toNat, hs.pos, List.length_append, List.length_singleton]
    omega
  chain := by
    rw [takeByte_tables]
    exact chain_takeByte hwf hs b
  head _ := head_takeByte hwf hs b
  tail := zeroTail_takeByte hwf hs.tail b

end Take

section Finish

variable {s : State} {m : List Byte} (hs : Absorbed s m)
include hs

/-- LEN is the value the length field of P(m) spells. -/
theorem len_of_absorbed : s.len = BitVec.ofNat 256 (8 * m.length) := by
  rw [← hs.len, BitVec.ofNat_toNat, BitVec.setWidth_eq]

/-- The block PAD marks begins as the block of P(m) that holds the mark. -/
theorem markedBlock_eq_padfn {j : Nat} (hj : 64 * (m.length / 64) + j + 32 < 64 * blockCount m.length) :
    markedBlock s j = (padfn m).getD (64 * (m.length / 64) + j) 0x00 := by
  have hpos := hs.pos
  unfold markedBlock
  split
  · rw [getD_padfn_message m (by omega)]
    exact hs.head j ‹_›
  · split
    · rw [show 64 * (m.length / 64) + j = m.length by omega, getD_padfn_mark]
    · rw [getD_padfn_zero m (by omega) hj]

/-- With at most 31 bytes in BUF, PAD's block is the last block of P(m). -/
theorem lastBlock_eq_padfn (hp : s.pos.toNat ≤ 31) {j : Nat} (hj : j < 64) :
    lastBlock s j = (padfn m).getD (64 * (m.length / 64) + j) 0x00 := by
  have hpos := hs.pos
  have hcount := blockCount_eq m.length
  rw [if_pos (by omega)] at hcount
  by_cases h : j < 32
  · rw [← markedBlock_eq_padfn hs (by omega)]
    simp only [lastBlock, markedBlock, h, if_true]
  · rw [show 64 * (m.length / 64) + j = 64 * blockCount m.length - 32 + (j - 32) by omega, getD_padfn_length m (by omega),
      ← len_of_absorbed hs, lastBlock, if_neg (by omega), if_neg (by omega), if_neg h]

/-- With more, PAD's second block is the last block of P(m). -/
theorem lengthBlock_eq_padfn (hp : 32 ≤ s.pos.toNat) {j : Nat} (hj : j < 64) :
    lengthBlock s j = (padfn m).getD (64 * (m.length / 64 + 1) + j) 0x00 := by
  have hpos := hs.pos
  have hcount := blockCount_eq m.length
  rw [if_neg (by omega)] at hcount
  unfold lengthBlock
  split
  · rw [getD_padfn_zero m (by omega) (by omega)]
  · rw [show 64 * (m.length / 64 + 1) + j = 64 * blockCount m.length - 32 + (j - 32) by omega, getD_padfn_length m (by omega),
      ← len_of_absorbed hs]

/-- PAD leaves the chaining value of all blocks of P(m) in H (rules R146 and R147). -/
theorem pad_h_of_absorbed (hwf : s.buf.wf = true) :
    (pad s).h = chainAfter s.tables (padfn m) (blockCount m.length) := by
  have hpos := hs.pos
  have hcount := blockCount_eq m.length
  by_cases hp : s.pos.toNat ≤ 31
  · rw [if_pos (by omega)] at hcount
    rw [pad_h_one hwf hp, hcount, chainAfter, chainAfter_padfn, ← hs.chain]
    exact congrArg (compress s.tables s.h) (packBytes_congr fun j hj => lastBlock_eq_padfn hs hp hj)
  · rw [if_neg (by omega)] at hcount
    rw [pad_h_two hwf (by omega), hcount, chainAfter, chainAfter, chainAfter_padfn, ← hs.chain]
    refine congrArg₂ (compress s.tables) (congrArg (compress s.tables s.h) ?_) ?_
    · exact packBytes_congr fun j hj => markedBlock_eq_padfn hs (by omega)
    · exact packBytes_congr fun j hj => lengthBlock_eq_padfn hs (by omega) hj

/-- FINAL leaves the digest of the absorbed message in H (rule R172). -/
theorem ser_finishComputation (hwf : s.buf.wf = true) : ser (finishComputation s).h = whirlpool s.tables m := by
  rw [finishComputation_h, pad_h_of_absorbed hs hwf, whirlpool]

end Finish

/-! ### The whole invariant (rule R36) -/

theorem inv_reset : Inv State.reset := ⟨rfl, bufferInv_reset, nofun, nofun⟩

theorem inv_same {s t : State} (h : SameRegisters s t) (hs : Inv s) : Inv t where
  tables := tablesBuilt_kept.same h hs.tables
  buffer := bufferInv_same h hs.buffer
  absorbed hst := (hs.absorbed (h.st ▸ hst)).imp fun _ => absorbed_same h
  digest := by
    rw [h.st, h.h, h.tables]
    exact hs.digest

theorem inv_start {s : State} (hs : Inv s) : Inv (startComputation s) where
  tables := tablesBuilt_kept.start hs.tables
  buffer := bufferInv_start s
  absorbed _ := ⟨[], absorbed_start s⟩
  digest := nofun

theorem inv_take {s : State} (b : Byte) (hst : s.st = .accumulating) (hlen : s.len.toNat + 8 < 2 ^ 256) (hs : Inv s) :
    Inv (takeByte b s) where
  tables := tablesBuilt_kept.take b hst hlen hs.tables
  buffer := bufferInv_take b hst hlen hs.buffer
  absorbed _ :=
    have ⟨m, hm⟩ := hs.absorbed hst
    ⟨m ++ [b], absorbed_take hs.buffer.bufWf hm b hlen⟩
  digest h := by rw [takeByte_st, hst] at h; cases h

theorem inv_finish {s : State} (hst : s.st = .accumulating) (herr : s.err = 0b00) (hs : Inv s) :
    Inv (finishComputation s) where
  tables := tablesBuilt_kept.finish hst herr hs.tables
  buffer := bufferInv_finish herr
  absorbed := nofun
  digest _ := by
    obtain ⟨m, hm⟩ := hs.absorbed hst
    refine ⟨m, hm.len ▸ s.len.isLt, ?_⟩
    rw [finishComputation_tables]
    exact ser_finishComputation hm hs.buffer.bufWf

/-- Settles O56: the induction over steps, with the absorbed message as witness. -/
theorem messageInvariantKept : Obligations.MessageInvariantKept := fun _ _ hs hstep =>
  KeptByOperations.step ⟨inv_reset, inv_same, inv_start, inv_take, inv_finish⟩ hstep hs

/-- Settles O57: the base case of the two invariants, of the built tables and of the canonical BUF. -/
theorem invariantsAtReset : Obligations.InvariantsAtReset :=
  ⟨bufferInv_reset, inv_reset, inv_reset.tables, bufferInv_reset.bufWf⟩

end Sys2Proof.Machine
end

section
/-! PROOFS. The family 10_state.md: the values at reset, and STATUS (rules R20, R31 and R38). -/

namespace Sys2Proof.Machine

/-! ### The substitution table (rule R20) -/

/-- No byte stands twice in the table. -/
theorem sboxBytes_nodup : sboxBytes.Nodup := by decide +kernel

/-- S of the built tables takes each byte once at most. -/
theorem built_S_injective : Function.Injective Tables.built.S := by
  intro x y hxy
  have hx : x.toNat < sboxBytes.length := by rw [sboxBytes_length]; exact x.isLt
  have hy : y.toNat < sboxBytes.length := by rw [sboxBytes_length]; exact y.isLt
  rw [built_S, built_S, List.getD_eq_getElem _ _ hx, List.getD_eq_getElem _ _ hy] at hxy
  exact BitVec.toNat_inj.1 ((sboxBytes_nodup.getElem_inj_iff).1 hxy)

/-- Settles O14: on the finite type of bytes an injective map is bijective; the values are entries of the table. -/
theorem substitutionTableIsPermutation : Obligations.SubstitutionTableIsPermutation := by
  refine ⟨Finite.injective_iff_bijective.1 built_S_injective, ?_, ?_, ?_, by decide +kernel⟩
  all_goals
    rw [built_S]
    decide

/-! ### Reset (rule R38) -/

/-- Settles O13: the tables entry by entry, and the other registers as `State.reset` gives them. -/
theorem resetValues : Obligations.ResetValues := by
  refine ⟨fun x => ?_, fun t x => ?_, fun r => ?_, fun i => ?_, fun j => ?_, rfl, rfl, rfl, rfl, rfl⟩
  · rw [State.reset_tables, built_S]
  · rw [State.reset_tables, built_C]
  · rw [State.reset_tables, built_RC]
  · rw [State.reset_h, Words.get_zero]
  · rw [State.bufRead_def, State.reset_buf, Memory.read_zero]

/-! ### STATUS (rule R31) -/

/-- The bits of STATUS above ST are those of ERR. -/
theorem getLsbD_status_err (s : State) {i : Nat} (hi : i < 2) : s.status.getLsbD (i + 2) = s.err.getLsbD i := by
  simp only [State.status, BitVec.getLsbD_append]
  rw [if_neg (by omega), Nat.add_sub_cancel, if_pos hi]

/-- Settles O51: STATUS is a concatenation of four zeros, ERR and the code of ST, read at the place of each. -/
theorem statusView : Obligations.StatusView := by
  refine ⟨fun s => ⟨?_, getLsbD_status_err s (by decide), getLsbD_status_err s (by decide), ?_⟩, rfl, rfl, rfl, rfl⟩
  · rw [State.status, extract_append_low _ _ _ _ (by decide), extract_whole _ _ rfl]
  · rw [State.status, extract_append_high _ _ _ _ (by decide), extract_append_high _ _ _ _ (by decide), extract_whole _ _ rfl]

end Sys2Proof.Machine
end

section
/-! PROOFS. The family 20_memory.md: the canonical form of BUF, and what the host can see of the registers (rules R50 and R57). -/

namespace Sys2Proof.Machine

/-! ### The canonical form of BUF (rule R50) -/

/-- Reset, INIT and FINAL leave BUF all zero, and an accepted byte is written at POS, below 64. -/
theorem canonicalBuf_kept : KeptByOperations fun s => s.buf.wf = true where
  reset := Memory.wf_zero
  same h hs := by rwa [h.buf]
  start _ := Memory.wf_zero
  take b _ _ hs := wf_takeByte hs b
  finish _ _ _ := Memory.wf_zero

/-- Settles O54: the induction over steps. -/
theorem bufferStaysCanonical : Obligations.BufferStaysCanonical := fun _ _ hs hstep => canonicalBuf_kept.step hstep hs

/-! ### What the host sees depends on ST, ERR and the limit of LEN only (rule R57) -/

/-- A command other than INIT whose check of ST and ERR fails is refused (rules R164, R171 and R177). -/
theorem exec_refused {i : Instr} {s : State} (hi : i ≠ .init) (hr : i = .digest → mayRead s = false)
    (hm : i ≠ .digest → mayAccumulate s = false) : exec i s = .next (s.raised .invalidState) := by
  cases i with
  | init => exact absurd rfl hi
  | add b => exact exec_add_refused (hm nofun)
  | final => exact exec_final_refused (hm nofun)
  | digest => exact exec_digest_refused (hr rfl)

/-- A command answers one next state at most. -/
theorem exec_next_unique {i : Instr} {s t u : State} (h : exec i s = .next t) (hu : exec i s = .next u) : t = u :=
  Host.Outcome.next.inj (h.symm.trans hu)

/-- What the host sees of a command, STATUS and the response, is the same in two states after it, but for the data that DIGEST
gives (rule R57). -/
def SameView (i : Instr) (t t' : State) : Prop :=
  t.status = t'.status ∧ t.resp.map Response.code = t'.resp.map Response.code ∧ (i ≠ .digest → t.resp = t'.resp)

section Checks

variable {s s' : State} (hst : s.st = s'.st) (herr : s.err = s'.err)
include hst herr

/-- STATUS is a view of ST and ERR (rule R31). -/
theorem status_congr : s.status = s'.status := by rw [State.status, State.status, hst, herr]

theorem mayAccumulate_congr : mayAccumulate s' = mayAccumulate s := by
  rw [Bool.eq_iff_iff, mayAccumulate_iff, mayAccumulate_iff, hst, herr]

theorem mayRead_congr : mayRead s' = mayRead s := by
  rw [Bool.eq_iff_iff, mayRead_iff, mayRead_iff, hst, herr]

/-- The same response from states alike in ST and ERR is all the host sees. -/
theorem sameView_setResp (i : Instr) (r : Response) : SameView i (s.setResp r) (s'.setResp r) :=
  ⟨status_congr hst herr, rfl, fun _ => rfl⟩

/-- An error sets the same flag in the same ERR and gives the same response. -/
theorem sameView_raised (i : Instr) (e : CoreError) : SameView i (s.raised e) (s'.raised e) :=
  sameView_setResp (s := s.setErr (errAfter s.err e)) (s' := s'.setErr (errAfter s'.err e)) hst (by simp [herr]) i e.response

end Checks

theorem lengthFull_congr {s s' : State} (h : s.len.toNat + 8 < 2 ^ 256 ↔ s'.len.toNat + 8 < 2 ^ 256) :
    lengthFull s' = lengthFull s := by
  rw [Bool.eq_iff_iff, lengthFull_iff, lengthFull_iff, ← not_lt, ← not_lt, h]

/-- Settles O52: the checks agree, so both states take the same of the six cases of a command. Each case writes ST and ERR from ST
and ERR alone and answers a fixed response, but for the data of an accepted DIGEST. -/
theorem registersDoNotLeak : Obligations.RegistersDoNotLeak := by
  intro i s s' t t' hst herr hlen h h'
  have hm := mayAccumulate_congr hst herr
  have hr := mayRead_congr hst herr
  have hl := lengthFull_congr hlen
  obtain ⟨rfl, rfl⟩ | ⟨b, rfl, ha, hf, rfl⟩ | ⟨b, rfl, ha, hf, rfl⟩ | ⟨rfl, ha, rfl⟩ | ⟨rfl, ha, rfl⟩ |
    ⟨hi, hd, ha, rfl⟩ := exec_cases h
  · obtain rfl := exec_next_unique h' (exec_init s')
    exact sameView_setResp (by simp) (by simp) _ _
  · obtain rfl := exec_next_unique h' (exec_add_accepted (hm.trans ha) (hl.trans hf))
    exact sameView_setResp (by simpa using hst) (by simpa using herr) _ _
  · obtain rfl := exec_next_unique h' (exec_add_overflow (hm.trans ha) (hl.trans hf))
    exact sameView_raised hst herr _ _
  · obtain rfl := exec_next_unique h' (exec_final_accepted (hm.trans ha))
    exact sameView_setResp (by simp) (by simpa using herr) _ _
  · obtain rfl := exec_next_unique h' (exec_digest_accepted (hr.trans ha))
    exact ⟨status_congr hst herr, rfl, fun hne => absurd rfl hne⟩
  · obtain rfl := exec_next_unique h' (exec_refused hi (fun e => hr.trans (hd e)) fun e => hm.trans (ha e))
    exact sameView_raised hst herr _ _

end Sys2Proof.Machine
end

section
/-! PROOFS. The family 30_encoding.md: the decoder, the encoder and the opcode map (rules R70 to R76). -/

namespace Sys2Proof.Machine

/-! ### A command word and its fields (rule R70) -/

@[simp] theorem joinFields_splitWord (w : CommandWord) : joinFields (splitWord w) = w :=
  (BitVec.extractLsb'_append_extractLsb'_eq_extractLsb' rfl).trans (extract_whole w 0 rfl)

@[simp] theorem splitWord_joinFields (c : CommandFields) : splitWord (joinFields c) = c := by
  rw [splitWord, joinFields, extract_append_high _ _ _ _ (by decide), extract_append_low _ _ _ _ (by decide),
    extract_whole _ _ rfl, extract_whole _ _ rfl]

theorem joinFields_injective : Function.Injective joinFields := Function.LeftInverse.injective splitWord_joinFields

theorem toNat_joinFields (c : CommandFields) : (joinFields c).toNat = 256 * c.op.toNat + c.imm8.toNat := by
  rw [joinFields, BitVec.toNat_append, ← Nat.shiftLeft_add_eq_or_of_lt c.imm8.isLt, Nat.shiftLeft_eq, Nat.mul_comm]

/-- A word is the word of a command exactly when its fields are the command's. -/
theorem eq_encode_iff {w : CommandWord} {i : Instr} : w = encode i ↔ splitWord w = i.fields :=
  ⟨fun h => by rw [h, encode, splitWord_joinFields], fun h => by rw [encode, ← h, joinFields_splitWord]⟩

/-! ### Decoding and encoding (rules R74 and R75) -/

theorem decodeFields_fields (i : Instr) : decodeFields i.fields = .ok i := by
  cases i <;> rfl

/-- Each branch of the decoder that answers a command has tested the fields for those of that command. -/
theorem eq_fields_of_decodeFields {c : CommandFields} {i : Instr} (h : decodeFields c = .ok i) : c = i.fields := by
  obtain ⟨op, imm8⟩ := c
  simp only [decodeFields] at h
  split_ifs at h with h1 h2 h2 h3 h2 h4 h2 <;> cases h <;> simp only [Instr.fields, *]

theorem decode_eq_ok_iff {w : CommandWord} {i : Instr} : decode w = .ok i ↔ w = encode i := by
  rw [eq_encode_iff, decode]
  exact ⟨eq_fields_of_decodeFields, fun h => by rw [h, decodeFields_fields]⟩

theorem wellFormed_instr (i : Instr) : i.wellFormed = true := by
  cases i <;> rfl

/-- Settles O2: the decoder's test of the fields undoes the encoder, and no command has ill-formed fields. -/
theorem decodeInvertsEncode : Obligations.DecodeInvertsEncode :=
  fun _ i => ⟨decode_eq_ok_iff, wellFormed_instr i⟩

theorem decode_of_fields {w : CommandWord} {i : Instr} (hop : w.extractLsb' 8 8 = i.fields.op)
    (himm : w.extractLsb' 0 8 = i.fields.imm8) : decode w = .ok i :=
  decode_eq_ok_iff.2 (eq_encode_iff.2 (by rw [splitWord, hop, himm]))

/-- Where no command has the word, the decoder refuses it. -/
theorem exists_decode_error_iff {w : CommandWord} : (∃ e, decode w = .error e) ↔ ¬ ∃ i, w = encode i := by
  simp only [← decode_eq_ok_iff]
  cases decode w <;> simp

/-! ### The words of the commands as numbers -/

theorem toNat_encode_add (b : Byte) : (encode (.add b)).toNat = 0x0200 + b.toNat := toNat_joinFields _

theorem exists_eq_encode_add_iff {w : CommandWord} :
    (∃ b, w = encode (.add b)) ↔ 0x0200 ≤ w.toNat ∧ w.toNat ≤ 0x02FF := by
  constructor
  · rintro ⟨b, rfl⟩
    rw [toNat_encode_add]
    omega
  · rintro ⟨hlo, hhi⟩
    refine ⟨BitVec.ofNat 8 (w.toNat - 0x0200), BitVec.eq_of_toNat_eq ?_⟩
    rw [toNat_encode_add, BitVec.toNat_ofNat]
    omega

/-- The 259 words that are no reserved ones (rule R74). -/
theorem exists_eq_encode_iff {w : CommandWord} :
    (∃ i, w = encode i) ↔
      w.toNat = 0x0100 ∨ (0x0200 ≤ w.toNat ∧ w.toNat ≤ 0x02FF) ∨ w.toNat = 0x0300 ∨ w.toNat = 0x0400 := by
  rw [← exists_eq_encode_add_iff]
  constructor
  · rintro ⟨i, rfl⟩
    cases i with
    | init => exact .inl rfl
    | add b => exact .inr (.inl ⟨b, rfl⟩)
    | final => exact .inr (.inr (.inl rfl))
    | digest => exact .inr (.inr (.inr rfl))
  · rintro (h | ⟨b, h⟩ | h | h)
    · exact ⟨.init, BitVec.eq_of_toNat_eq h⟩
    · exact ⟨.add b, h⟩
    · exact ⟨.final, BitVec.eq_of_toNat_eq h⟩
    · exact ⟨.digest, BitVec.eq_of_toNat_eq h⟩

/-! ### How many words each case has (rule R75) -/

theorem toOption_decode_eq_some_iff {w : CommandWord} {i : Instr} : (decode w).toOption = some i ↔ w = encode i := by
  rw [← decode_eq_ok_iff]
  cases decode w <;> simp [Except.toOption]

theorem toOption_decode_isNone_iff {w : CommandWord} : (decode w).toOption.isNone = true ↔ ¬ ∃ i, w = encode i := by
  rw [← exists_decode_error_iff]
  cases decode w <;> simp [Except.toOption]

theorem toNat_ofNat_of_mem_range {n : Nat} (hn : n ∈ Finset.range 65536) : (BitVec.ofNat 16 n).toNat = n := by
  rw [BitVec.toNat_ofNat, Nat.mod_eq_of_lt (Finset.mem_range.1 hn)]

/-- Each command has one word. -/
theorem card_words_of_command (i : Instr) :
    ((Finset.range 65536).filter fun n => (decode (BitVec.ofNat 16 n)).toOption = some i).card = 1 := by
  rw [Finset.card_eq_one]
  refine ⟨(encode i).toNat, Finset.ext fun n => ?_⟩
  rw [Finset.mem_filter, Finset.mem_singleton, toOption_decode_eq_some_iff]
  constructor
  · rintro ⟨hn, h⟩
    rw [← h, toNat_ofNat_of_mem_range hn]
  · rintro rfl
    exact ⟨Finset.mem_range.2 (encode i).isLt, by rw [BitVec.ofNat_toNat, BitVec.setWidth_eq]⟩

theorem mnemonic_eq_add_iff {i : Instr} : i.mnemonic = "ADD" ↔ ∃ b, i = .add b := by
  cases i <;> simp [Instr.mnemonic]

theorem exists_word_of_add_iff {w : CommandWord} :
    (∃ i, w = encode i ∧ i.mnemonic = "ADD") ↔ ∃ b, w = encode (.add b) := by
  simp only [mnemonic_eq_add_iff]
  exact ⟨fun ⟨_, hw, b, hi⟩ => ⟨b, hi ▸ hw⟩, fun ⟨b, hw⟩ => ⟨_, hw, b, rfl⟩⟩

theorem card_words_of_add :
    ((Finset.range 65536).filter fun n => ((decode (BitVec.ofNat 16 n)).toOption.map Instr.mnemonic) = some "ADD").card
      = 256 := by
  have hset : ((Finset.range 65536).filter fun n =>
      ((decode (BitVec.ofNat 16 n)).toOption.map Instr.mnemonic) = some "ADD") = Finset.Icc 0x0200 0x02FF := by
    ext n
    simp only [Finset.mem_filter, Finset.mem_Icc, Option.map_eq_some_iff, toOption_decode_eq_some_iff, exists_word_of_add_iff,
      exists_eq_encode_add_iff]
    constructor
    · rintro ⟨hn, h⟩
      rwa [toNat_ofNat_of_mem_range hn] at h
    · intro h
      have hn : n ∈ Finset.range 65536 := Finset.mem_range.2 (by omega)
      exact ⟨hn, by rwa [toNat_ofNat_of_mem_range hn]⟩
  rw [hset, Nat.card_Icc]

/-- Every other word is reserved. -/
theorem card_reserved_words :
    ((Finset.range 65536).filter fun n => (decode (BitVec.ofNat 16 n)).toOption.isNone).card = 65277 := by
  have hset : ((Finset.range 65536).filter fun n => (decode (BitVec.ofNat 16 n)).toOption.isNone) =
      Finset.range 65536 \ insert 0x0100 (insert 0x0400 (Finset.Icc 0x0200 0x0300)) := by
    ext n
    simp only [Finset.mem_filter, Finset.mem_sdiff, Finset.mem_insert, Finset.mem_Icc]
    refine and_congr_right fun hn => ?_
    rw [toOption_decode_isNone_iff, exists_eq_encode_iff, toNat_ofNat_of_mem_range hn]
    omega
  rw [hset, Finset.card_sdiff_of_subset, Finset.card_insert_of_notMem (by simp), Finset.card_insert_of_notMem (by simp),
    Nat.card_Icc, Finset.card_range]
  intro n
  simp only [Finset.mem_insert, Finset.mem_Icc, Finset.mem_range]
  omega

/-- Settles O1: the fields decide the command, a word that decodes to one has its fields, and the words of the commands are
counted by their numbers. -/
theorem decoderFollowsRule : Obligations.DecoderFollowsRule := by
  refine ⟨fun w => ⟨fun hop himm => decode_of_fields hop himm, fun hop => decode_of_fields hop rfl,
    fun hop himm => decode_of_fields hop himm, fun hop himm => decode_of_fields hop himm, fun h1 h2 h3 h4 => ?_⟩,
    card_words_of_command _, card_words_of_add, card_words_of_command _, card_words_of_command _, card_reserved_words⟩
  rw [exists_decode_error_iff]
  rintro ⟨i, hi⟩
  obtain ⟨hop, himm⟩ := CommandFields.mk.inj (eq_encode_iff.1 hi)
  cases i with
  | init => exact h1 ⟨hop, himm⟩
  | add b => exact h2 hop
  | final => exact h3 ⟨hop, himm⟩
  | digest => exact h4 ⟨hop, himm⟩

/-! ### The opcode map (rule R74) -/

/-- The rows of the opcode map have different mnemonics. -/
theorem row_eq_of_mnemonic_eq : ∀ r ∈ opcodeMap, ∀ r' ∈ opcodeMap, r.mnemonic = r'.mnemonic → r = r' := by decide

/-- The mnemonic of a command without an operand is its own. -/
theorem eq_of_mnemonic_eq {i j : Instr} (hi : formatOf i.fields.op = some .n) (h : j.mnemonic = i.mnemonic) : j = i := by
  cases i <;> cases j <;> simp_all [Instr.mnemonic, Instr.fields, formatOf]

/-- A row with a full mask is selected by the one word of its command. -/
theorem selects_full_mask_iff {i : Instr} (hi : formatOf i.fields.op = some .n) (w : CommandWord) :
    OpcodeRow.selects ⟨i.mnemonic, encode i, 0xFFFF⟩ w = true ↔ ∃ j, decode w = .ok j ∧ j.mnemonic = i.mnemonic := by
  have hmask : w &&& 0xFFFF = w := BitVec.and_allOnes
  simp only [OpcodeRow.selects, hmask, decide_eq_true_iff, decode_eq_ok_iff]
  exact ⟨fun h => ⟨i, h, rfl⟩, fun ⟨j, hw, hj⟩ => eq_of_mnemonic_eq hi hj ▸ hw⟩

/-- The mask of ADD keeps `op` and clears `imm8`. -/
theorem and_op_mask (w : CommandWord) : w &&& 0xFF00 = joinFields ⟨(splitWord w).op, 0x00⟩ := by
  calc w &&& 0xFF00 = joinFields (splitWord w) &&& ((0xFF : Byte) ++ (0x00 : Byte)) := by rw [joinFields_splitWord]; rfl
    _ = ((splitWord w).op &&& 0xFF) ++ ((splitWord w).imm8 &&& 0x00) := BitVec.and_append
    _ = joinFields ⟨(splitWord w).op, 0x00⟩ := congrArg₂ (· ++ ·) BitVec.and_allOnes BitVec.and_zero

theorem selects_add_iff (w : CommandWord) :
    OpcodeRow.selects ⟨"ADD", 0x0200, 0xFF00⟩ w = true ↔ ∃ i, decode w = .ok i ∧ i.mnemonic = "ADD" := by
  have hword : joinFields ⟨0x02, 0x00⟩ = 0x0200 := by decide
  simp only [decode_eq_ok_iff, exists_word_of_add_iff, OpcodeRow.selects, decide_eq_true_iff, and_op_mask, ← hword]
  constructor
  · intro h
    have hop : (splitWord w).op = 0x02 := congrArg CommandFields.op (joinFields_injective h)
    exact ⟨(splitWord w).imm8, eq_encode_iff.2 (by rw [Instr.fields, ← hop])⟩
  · rintro ⟨b, rfl⟩
    rw [encode, splitWord_joinFields, Instr.fields]

/-- Settles O3: each row selects the words of its command, and two rows that a word selects have the mnemonic of the one command it
decodes to. -/
theorem opcodeMapSelectsDecodedCommand : Obligations.OpcodeMapSelectsDecodedCommand := by
  intro w
  have hrow : ∀ r ∈ opcodeMap, r.selects w = true ↔ ∃ i, decode w = .ok i ∧ i.mnemonic = r.mnemonic := by
    simp only [opcodeMap, List.forall_mem_cons]
    exact ⟨selects_full_mask_iff (i := .init) rfl w, selects_add_iff w, selects_full_mask_iff (i := .final) rfl w,
      selects_full_mask_iff (i := .digest) rfl w, nofun⟩
  refine ⟨hrow, fun r hr r' hr' h h' => row_eq_of_mnemonic_eq r hr r' hr' ?_⟩
  obtain ⟨i, hi, hm⟩ := (hrow r hr).1 h
  obtain ⟨i', hi', hm'⟩ := (hrow r' hr').1 h'
  obtain rfl := Except.ok.inj (hi.symm.trans hi')
  exact hm.symm.trans hm'

/-- Settles O4: each word is evaluated. -/
theorem sampleWordsDecode : Obligations.SampleWordsDecode := by
  unfold Obligations.SampleWordsDecode
  decide

end Sys2Proof.Machine
end

section
/-! PROOFS. The family 30_encoding.md: the responses and their data (rules R76, R78 and R79). -/

namespace Sys2Proof.Machine

/-! ### Reserved words (rule R76) -/

theorem toNat_eq_fields (w : CommandWord) : w.toNat = 256 * (w.extractLsb' 8 8).toNat + (w.extractLsb' 0 8).toNat := by
  rw [← congrArg BitVec.toNat (joinFields_splitWord w), toNat_joinFields, splitWord]

/-- The reserved words in the ranges of rule R76. -/
theorem reserved_iff (w : CommandWord) :
    (∃ e, decode w = .error e) ↔
      w.extractLsb' 8 8 = 0x00 ∨ 0x05 ≤ (w.extractLsb' 8 8).toNat ∨ (0x0101 ≤ w.toNat ∧ w.toNat ≤ 0x01FF) ∨
        (0x0301 ≤ w.toNat ∧ w.toNat ≤ 0x03FF) ∨ (0x0401 ≤ w.toNat ∧ w.toNat ≤ 0x04FF) := by
  have hw := toNat_eq_fields w
  have hop : w.extractLsb' 8 8 = 0x00 ↔ (w.extractLsb' 8 8).toNat = 0 := BitVec.toNat_inj.symm
  rw [exists_decode_error_iff, exists_eq_encode_iff, hop]
  omega

/-- ILLEGAL_CMD sets no flag (rule R193). -/
theorem raised_illegalCmd (s : State) : s.raised .illegalCmd = { s with resp := some .illegalCmd } := by
  ext <;> simp [errAfter, CoreError.flag, CoreError.response]

/-- Settles O5: the ranges of the reserved words, and the error that sets no flag. -/
theorem reservedWordAnsweredIllegal : Obligations.ReservedWordAnsweredIllegal := by
  refine fun w s => ⟨reserved_iff w, ?_⟩
  rintro ⟨e, he⟩
  rw [transact_reserved he, raised_illegalCmd]

/-! ### One response for each word (rule R78) -/

/-- Data is present exactly for a DIGEST answered OK. -/
def DataOnlyWithOk (i : Instr) (r : Response) : Prop := r.data.isSome = true ↔ i = .digest ∧ r.code = 0b00

theorem dataOnlyWithOk_of_no_data {i : Instr} {r : Response} (hdata : r.data = none) (h : i = .digest → r.code ≠ 0b00) :
    DataOnlyWithOk i r := by
  rw [DataOnlyWithOk, hdata]
  exact iff_of_false nofun fun ⟨hi, hcode⟩ => h hi hcode

theorem dataOnlyWithOk_error (i : Instr) (e : CoreError) : DataOnlyWithOk i e.response :=
  dataOnlyWithOk_of_no_data (by cases e <;> rfl) fun _ => by cases e <;> decide

/-- A command gives one response: its own answer OK, or that of an error. -/
theorem exec_responds (i : Instr) (s : State) : ∃ t r, exec i s = .next t ∧ t.resp = some r ∧ DataOnlyWithOk i r := by
  obtain ⟨t, h⟩ := exec_goes_on i s
  obtain ⟨rfl, rfl⟩ | ⟨b, rfl, -, -, rfl⟩ | ⟨b, rfl, -, -, rfl⟩ | ⟨rfl, -, rfl⟩ | ⟨rfl, -, rfl⟩ | ⟨-, -, -, rfl⟩ :=
    exec_cases h
  · exact ⟨_, _, h, State.setResp_resp _ _, dataOnlyWithOk_of_no_data rfl nofun⟩
  · exact ⟨_, _, h, State.setResp_resp _ _, dataOnlyWithOk_of_no_data rfl nofun⟩
  · exact ⟨_, _, h, State.raised_resp _ _, dataOnlyWithOk_error _ _⟩
  · exact ⟨_, _, h, State.setResp_resp _ _, dataOnlyWithOk_of_no_data rfl nofun⟩
  · exact ⟨_, _, h, State.setResp_resp _ _, iff_of_true rfl ⟨rfl, rfl⟩⟩
  · exact ⟨_, _, h, State.raised_resp _ _, dataOnlyWithOk_error _ _⟩

/-- Settles O6: a command responds, and a reserved word is answered by an error, without data. -/
theorem dataOnlyWithDigestOk : Obligations.DataOnlyWithDigestOk := by
  refine ⟨fun w s => ?_, fun _ => rfl, rfl, rfl, rfl⟩
  cases hd : decode w with
  | ok i =>
    obtain ⟨t, r, hstep, hresp, hdata⟩ := exec_responds i s
    exact ⟨t, r, (transact_command hd s).trans hstep, hresp, by rw [Except.ok.injEq]; exact hdata⟩
  | error e => exact ⟨_, _, transact_reserved hd s, State.raised_resp _ _, iff_of_false nofun nofun⟩

/-! ### The data on the 512-bit bus (rule R79) -/

/-- The number that bytes stand for, the first one the most significant. -/
def bytesValue (d : List Byte) : Nat := d.foldl (fun acc b => acc * 256 + b.toNat) 0

theorem bytesValue_concat (d : List Byte) (b : Byte) : bytesValue (d ++ [b]) = bytesValue d * 256 + b.toNat :=
  List.foldl_concat ..

theorem pow_bits_succ (n : Nat) : 2 ^ (8 * (n + 1)) = 256 * 2 ^ (8 * n) := by
  rw [Nat.mul_succ, Nat.pow_add, Nat.mul_comm]

theorem bytesValue_lt (d : List Byte) : bytesValue d < 2 ^ (8 * d.length) := by
  induction d using List.reverseRecOn with
  | nil => exact Nat.one_pos
  | append_singleton d b ih =>
    rw [bytesValue_concat, List.length_append, List.length_singleton, pow_bits_succ]
    omega

/-- Division by powers of 256 reads the bytes off from the last one. -/
theorem bytesValue_div_mod (d : List Byte) (k j : Nat) (hj : j < d.length) (hk : k + j + 1 = d.length) :
    bytesValue d / 2 ^ (8 * k) % 256 = (d[j]).toNat := by
  induction d using List.reverseRecOn generalizing k with
  | nil => exact absurd hj (Nat.not_lt_zero j)
  | append_singleton d b ih =>
    rw [List.length_append, List.length_singleton] at hk
    rw [bytesValue_concat]
    cases k with
    | zero =>
      obtain rfl : j = d.length := by omega
      rw [List.getElem_concat_length rfl, Nat.mul_zero, pow_zero, Nat.div_one]
      omega
    | succ k =>
      rw [List.getElem_append_left (by omega), ← ih k (by omega) (by omega), pow_bits_succ,
        ← Nat.div_div_eq_div_mul]
      congr 2
      omega

theorem toNat_ofNat_bytesValue {d : List Byte} {n : Nat} (h : 8 * d.length = n) :
    (BitVec.ofNat n (bytesValue d)).toNat = bytesValue d := by
  subst h
  rw [BitVec.toNat_ofNat, Nat.mod_eq_of_lt (bytesValue_lt d)]

theorem toNat_dout (d : Digest) : (Response.ok (some d)).dout.toNat = bytesValue d.toList :=
  toNat_ofNat_bytesValue (by rw [Vector.length_toList])

theorem dout_byte (d : Digest) (j : Nat) (hj : j < 64) :
    (Response.ok (some d)).dout.extractLsb' (504 - 8 * j) 8 = d[j] := by
  apply BitVec.eq_of_toNat_eq
  rw [BitVec.extractLsb'_toNat, Nat.shiftRight_eq_div_pow, toNat_dout, show 504 - 8 * j = 8 * (63 - j) by omega]
  exact bytesValue_div_mod d.toList (63 - j) j (by simpa using hj) (by simp; omega)

theorem byteOf_extract {n : Nat} (v : BitVec n) (s : Nat) (t : Fin 8) :
    byteOf (v.extractLsb' s 64) t = v.extractLsb' (s + (56 - 8 * t.val)) 8 := by
  ext i hi
  simp only [byteOf, BitVec.getElem_extractLsb', BitVec.getLsbD_extractLsb']
  rw [decide_eq_true (by omega), Bool.true_and, Nat.add_assoc]

/-- Word `i` on the bus has the eight digest bytes of word `i` of H (rule R148). -/
theorem dout_word (h : Words) (i : Fin 8) :
    (Response.ok (some (ser h))).dout.extractLsb' (448 - 64 * i.val) 64 = h.get i := by
  refine word_ext_byte fun t => ?_
  have hpos : 448 - 64 * i.val + (56 - 8 * t.val) = 504 - 8 * (8 * i.val + t.val) := by omega
  rw [byteOf_extract, hpos, ← byteOf_packBytes fun j => (Response.ok (some (ser h))).dout.extractLsb' (504 - 8 * j) 8,
    packBytes_ser h _ fun j hj => dout_byte (ser h) j hj]

/-- Settles O7: byte by byte, by the value of the bytes read from the last one on; word by word, by its eight bytes. -/
theorem digestBusLayout : Obligations.DigestBusLayout := by
  refine ⟨dout_byte, fun r hr => ?_, dout_word⟩
  rw [Response.dout, hr]

end Sys2Proof.Machine
end

section
/-! PROOFS. The family 30_encoding.md: what the lines of a command script stand for (rules R82 to R84). -/

namespace Sys2Proof.Machine

/-! ### The mnemonic of a line (rule R82) -/

/-- What ends a word is no capital letter. -/
theorem takeMnemonic_atBreak {cs : List Char} (h : atBreak cs = true) : takeMnemonic cs = ([], cs) := by
  cases cs with
  | nil => rfl
  | cons c cs =>
    have hc : c = ' ' ∨ c = ';' := by simpa [atBreak] using h
    obtain rfl | rfl := hc <;> rfl

theorem takeMnemonic_append {word rest : List Char} (hword : word.all Char.isUpper = true) (hrest : atBreak rest = true) :
    takeMnemonic (word ++ rest) = (word, rest) := by
  induction word with
  | nil => exact takeMnemonic_atBreak hrest
  | cons c word ih =>
    obtain ⟨hc, hword⟩ := Bool.and_eq_true_iff.1 hword
    rw [List.cons_append, takeMnemonic, if_pos hc, ih hword]

theorem skipSpaces_cons {c : Char} (hc : c ≠ ' ') (cs : List Char) : skipSpaces (c :: cs) = c :: cs := if_neg hc

section Mnemonics

variable {rest : List Char} (hrest : atBreak rest = true)
include hrest

theorem takeMnemonic_skipSpaces {c : Char} {word : List Char} (hword : (c :: word).all Char.isUpper = true) :
    takeMnemonic (skipSpaces (c :: word ++ rest)) = (c :: word, rest) := by
  have hc : c ≠ ' ' := by
    rintro rfl
    exact absurd (Bool.and_eq_true_iff.1 hword).1 (by decide)
  rw [List.cons_append, skipSpaces_cons hc, ← List.cons_append, takeMnemonic_append hword hrest]

theorem parseLine_init :
    parseLine (['I', 'N', 'I', 'T'] ++ rest) = if onlyComment rest then some [.command .init] else none := by
  rw [parseLine, takeMnemonic_skipSpaces hrest rfl]
  rfl

theorem parseLine_final :
    parseLine (['F', 'I', 'N', 'A', 'L'] ++ rest) = if onlyComment rest then some [.command .final] else none := by
  rw [parseLine, takeMnemonic_skipSpaces hrest rfl]
  rfl

theorem parseLine_digest :
    parseLine (['D', 'I', 'G', 'E', 'S', 'T'] ++ rest) = if onlyComment rest then some [.command .digest] else none := by
  rw [parseLine, takeMnemonic_skipSpaces hrest rfl]
  rfl

theorem parseLine_add : parseLine (['A', 'D', 'D'] ++ rest) = (byteOperand rest).map fun b => [.command (.add b)] := by
  rw [parseLine, takeMnemonic_skipSpaces hrest rfl]
  exact if_pos hrest

theorem parseLine_adds : parseLine (['A', 'D', 'D', 'S'] ++ rest) = (bytesOperand rest).map fun m => [.adds m] := by
  rw [parseLine, takeMnemonic_skipSpaces hrest rfl]
  exact if_pos hrest

theorem parseLine_hash : parseLine (['H', 'A', 'S', 'H'] ++ rest) = (bytesOperand rest).map fun m => [.hash m] := by
  rw [parseLine, takeMnemonic_skipSpaces hrest rfl]
  exact if_pos hrest

end Mnemonics

/-- A line that begins with the digit zero has no mnemonic. -/
theorem parseLine_zero (cs : List Char) : parseLine ('0' :: cs) = (rawWord ('0' :: cs)).map fun w => [.raw w] := rfl

theorem assemble_of_parseLine {line : List Char} {l : ScriptLine} (h : parseLine line = some [l]) :
    assemble [line] = some l.words := by
  simp [assemble, h]

theorem addsWords_map {α : Type} (f : α → Byte) (l : List α) :
    addsWords (l.map f) = l.map fun a => encode (.add (f a)) := List.map_map

/-! ### The byte sequence of ADDS and HASH (rules R83 and R84) -/

theorem bytesOperand_text {text : List Char} (h : ∀ c ∈ text, c.toNat ≤ 0x7F ∧ c ≠ textQuote) :
    bytesOperand (' ' :: textQuote :: (text ++ [textQuote])) = some (text.map fun c => BitVec.ofNat 8 c.toNat) := by
  have hskip : skipSpaces (' ' :: textQuote :: (text ++ [textQuote])) = textQuote :: (text ++ [textQuote]) := rfl
  simp only [bytesOperand, hskip, takeText_ascii text [] h]
  rfl

theorem atBreak_hexText (m : List Byte) : atBreak (m.map fun b => ' ' :: hexText b).flatten = true := by
  cases m <;> rfl

/-- No byte is written with a quote in front. -/
theorem bytesOperand_hexText (m : List Byte) : bytesOperand (m.map fun b => ' ' :: hexText b).flatten = some m := by
  cases m with
  | nil => rfl
  | cons b m => exact hexBytes_hexText (b :: m)

/-- Settles O9: the mnemonic leaves the operand, and the text up to its closing quote is the characters' codes. -/
theorem scriptLinesStandForBytes : Obligations.ScriptLinesStandForBytes := by
  intro text h
  have hhash : parseLine (['H', 'A', 'S', 'H', ' ', textQuote] ++ text ++ [textQuote]) =
      some [.hash (text.map fun c => BitVec.ofNat 8 c.toNat)] :=
    (parseLine_hash rfl).trans (congrArg (Option.map _) (bytesOperand_text h))
  have hadds : parseLine (['A', 'D', 'D', 'S', ' ', textQuote] ++ text ++ [textQuote]) =
      some [.adds (text.map fun c => BitVec.ofNat 8 c.toNat)] :=
    (parseLine_adds rfl).trans (congrArg (Option.map _) (bytesOperand_text h))
  refine ⟨hhash, hadds, ?_, ?_⟩
  · rw [assemble_of_parseLine hhash, ScriptLine.words, hashWords, addsWords_map]
  · rw [assemble_of_parseLine hadds, ScriptLine.words, addsWords_map]

/-- Settles O59: the mnemonic leaves the operand, and the printed bytes are read back. -/
theorem byteLinesStandForBytes : Obligations.ByteLinesStandForBytes := by
  intro m
  have hadds : parseLine (['A', 'D', 'D', 'S'] ++ (m.map fun b => ' ' :: hexText b).flatten) = some [.adds m] := by
    rw [parseLine_adds (atBreak_hexText m), bytesOperand_hexText, Option.map_some]
  have hhash : parseLine (['H', 'A', 'S', 'H'] ++ (m.map fun b => ' ' :: hexText b).flatten) = some [.hash m] := by
    rw [parseLine_hash (atBreak_hexText m), bytesOperand_hexText, Option.map_some]
  exact ⟨hadds, hhash, assemble_of_parseLine hadds, assemble_of_parseLine hhash⟩

/-! ### The lines of one command (rule R82) -/

theorem byteOperand_hex (x y : Char) {tail : List Char} (htail : onlyComment tail = true) :
    byteOperand (' ' :: '0' :: 'x' :: x :: y :: tail) = hexByte x y := if_pos htail

theorem byteOperand_quoted (c : Char) {tail : List Char} (htail : onlyComment tail = true) :
    byteOperand (' ' :: charQuote :: c :: charQuote :: tail) = printableByte c := if_pos ⟨rfl, rfl, htail⟩

theorem printableByte_of_printable {c : Char} (hlo : 0x20 ≤ c.toNat) (hhi : c.toNat ≤ 0x7E) :
    printableByte c = some (BitVec.ofNat 8 c.toNat) := by
  rw [printableByte, if_pos ⟨hlo, hhi⟩, asciiByte, if_pos (by omega)]

theorem rawWord_hexText (hi lo : Byte) {tail : List Char} (htail : onlyComment tail = true) :
    rawWord (hexText hi ++ (hexText lo).drop 2 ++ tail) = some (hi ++ lo) := by
  simp only [hexText, List.drop_succ_cons, List.drop_zero, List.cons_append, List.nil_append, rawWord, hexByte_hexText,
    htail, if_true]

/-- What may stand behind a line: nothing, a comment, or a space and a comment. -/
theorem tail_ends_line {comment tail : List Char} (h : tail ∈ [[], ' ' :: ';' :: comment, ';' :: comment]) :
    atBreak tail = true ∧ onlyComment tail = true := by
  simp only [List.mem_cons, List.not_mem_nil, or_false] at h
  obtain rfl | rfl | rfl := h <;> exact ⟨rfl, rfl⟩

/-- Settles O58: the mnemonic leaves the operand and the comment, and a line without one begins with the digit zero. -/
theorem commandLinesStandForWords : Obligations.CommandLinesStandForWords := by
  intro comment tail hmem
  obtain ⟨hbreak, hcomment⟩ := tail_ends_line hmem
  refine ⟨fun h l hh hl x hx y hy => ?_, fun c hlo hhi => ?_, fun hi lo => ?_, ?_, ?_, ?_⟩
  · have hline : parseLine (['A', 'D', 'D', ' ', '0', 'x', x, y] ++ tail) =
        some [.command (.add (BitVec.ofNat 8 (16 * h + l)))] :=
      (parseLine_add rfl).trans (congrArg (Option.map _) ((byteOperand_hex x y hcomment).trans (hexByte_digits hh hl hx hy)))
    exact ⟨hline, assemble_of_parseLine hline⟩
  · exact (parseLine_add rfl).trans
      (congrArg (Option.map _) ((byteOperand_quoted c hcomment).trans (printableByte_of_printable hlo hhi)))
  · have hline : parseLine (hexText hi ++ (hexText lo).drop 2 ++ tail) = some [.raw (hi ++ lo)] :=
      (parseLine_zero _).trans (congrArg (Option.map _) (rawWord_hexText hi lo hcomment))
    exact ⟨hline, assemble_of_parseLine hline⟩
  · rw [parseLine_init hbreak, if_pos hcomment]
  · rw [parseLine_final hbreak, if_pos hcomment]
  · rw [parseLine_digest hbreak, if_pos hcomment]

end Sys2Proof.Machine
end

section
/-! PROOFS. The family 40_constant_generator.md: doubling in GF(2^8), the rows of C and the round constants (rules R100 to R109). -/

namespace Sys2Proof.Machine

/-! ### Doubling (rule R100) -/

/-- Nine bits with bit 8 clear are given by the low eight. -/
theorem setWidth_setWidth_of_top_clear {d : BitVec 9} (h : d.getLsbD 8 = false) : (d.setWidth 8).setWidth 9 = d := by
  ext i hi
  obtain rfl | hlt := Nat.eq_or_lt_of_le (Nat.le_of_lt_succ hi)
  · simpa using h.symm
  · simp [hlt, BitVec.getLsbD_eq_getElem hi]

/-- XTIME in the nine bits of its pseudocode: the reduction clears bit 8, so the eight bits kept are the whole value. -/
theorem xtime_nine_bits (v : Byte) :
    (xtime v).setWidth 9 =
      if (v.setWidth 9 <<< 1 : BitVec 9).getLsbD 8 then v.setWidth 9 <<< 1 ^^^ Config.poly else v.setWidth 9 <<< 1 := by
  apply setWidth_setWidth_of_top_clear
  split
  case isTrue h => rw [BitVec.getLsbD_xor, h]; rfl
  case isFalse h => exact eq_false_of_ne_true h

/-- Settles O15: nine bits, eight bits and the bijection are a lemma each, and the corner cases are evaluated. -/
theorem doublingIsShiftAndReduce : Obligations.DoublingIsShiftAndReduce :=
  ⟨xtime_nine_bits, xtime_eq_shift, xtime_bijective, by decide⟩

/-! ### The rows of C (rules R102 to R104) -/

@[simp] theorem gfTimes_one (v : Byte) : gfTimes 1 v = v := by
  simp [gfTimes, mult]

@[simp] theorem ror64_zero (w : Word) : ror64 w 0 = w := by
  simp [ror64]

/-- Row 0 of C is the row-0 word of `S[x]` (rule R102). -/
theorem built_C_row_zero (x : Byte) : Tables.built.C 0 x = crow0 (Tables.built.S x) :=
  (built_C 0 x).trans (ror64_zero _)

/-- Each row of C is row 0 rotated (rule R103). -/
theorem built_C_eq_ror64 (t : Fin 8) (x : Byte) : Tables.built.C t x = ror64 (Tables.built.C 0 x) (8 * t.val) := by
  rw [built_C_row_zero, built_C]

/-- The rotation read at one byte (rule R104). -/
theorem byteOf_built_C_row (t k : Fin 8) (x : Byte) :
    byteOf (Tables.built.C t x) k = byteOf (Tables.built.C 0 x) (k - t) := by
  rw [built_C_eq_ror64, byteOf_ror64]

/-- Each byte of C is a multiple of `S[x]` in GF(2^8) (rule R104). -/
theorem byteOf_built_C (t k : Fin 8) (x : Byte) :
    byteOf (Tables.built.C t x) k = gfTimes (rowMultiplier (k - t)) (Tables.built.S x) := by
  rw [byteOf_built_C_row, built_C_row_zero, crow0_eq_pack, byteOf_packWord]

/-- Byte `t` of row `t` has the multiplier 1 (rule R104). -/
theorem byteOf_built_C_diag (t : Fin 8) (x : Byte) : byteOf (Tables.built.C t x) t = Tables.built.S x := by
  rw [byteOf_built_C, sub_self, rowMultiplier, gfTimes_one]

/-- Settles O16: each row rotates row 0, whose word packs the eight multiples. -/
theorem diffusionTableClosedForm : Obligations.DiffusionTableClosedForm := fun t k x =>
  ⟨byteOf_built_C_row t k x, byteOf_built_C t k x, byteOf_built_C_diag t x, built_C_eq_ror64 t x⟩

/-! ### The round constants (rules R105, R106 and R109) -/

/-- The mask of byte position `t` is 0xFF there and zero elsewhere. -/
theorem byteOf_byteMask (t k : Fin 8) : byteOf (byteMask t) k = if k = t then 0xFF else 0x00 := by
  revert t k
  decide

/-- A word masked to byte position `t`, byte by byte. -/
theorem byteOf_and_byteMask (w : Word) (t k : Fin 8) :
    byteOf (w &&& byteMask t) k = if k = t then byteOf w k else 0x00 := by
  rw [byteOf_and, byteOf_byteMask]
  split
  · exact BitVec.and_allOnes
  · exact BitVec.and_zero

/-- Of eight words, each masked to its own byte position, only word `k` gives byte `k` of the sum (rule R105). -/
theorem byteOf_rcgen (c : Fin 8 → Byte → Word) (r : Nat) (k : Fin 8) :
    byteOf (rcgen c r) k = byteOf (c k (BitVec.ofNat 8 (8 * r + k.val))) k := by
  simp only [rcgen, byteOf_xorOver, byteOf_and_byteMask]
  fin_cases k <;> simp

/-- Each byte of a round constant is a substitution value (rule R106). -/
theorem byteOf_built_RC (r : Fin 10) (t : Fin 8) :
    byteOf (Tables.built.RC r) t = Tables.built.S (BitVec.ofNat 8 (8 * r.val + t.val)) := by
  rw [built_RC, byteOf_rcgen, byteOf_built_C_diag]

/-- A round constant is eight entries of the substitution table in a row (rule R106). -/
theorem built_RC_eq_pack (r : Fin 10) :
    Tables.built.RC r = packWord fun t => sboxBytes.getD (BitVec.ofNat 8 (8 * r.val + t.val)).toNat 0 :=
  word_ext_byte fun t => by rw [byteOf_packWord, byteOf_built_RC, built_S]

/-- Settles O17: the masks leave one byte of each entry of C, the plain substitution value; the ten values are packed from the
table. -/
theorem roundConstantsFromSubstitution : Obligations.RoundConstantsFromSubstitution := by
  refine ⟨byteOf_built_RC, ?_⟩
  rw [funext built_RC_eq_pack]
  decide

end Sys2Proof.Machine
end

section
/-! PROOFS. The family 41_compression.md: LAYER read word by word and byte by byte, one round, and COMPRESS (rules R121 to R127). -/

namespace Sys2Proof.Machine

/-! ### LAYER and one round (rules R121 to R124) -/

/-- Word `i` of LAYER (rule R121). -/
theorem get_layer (T : Tables) (a : Words) (i : Fin 8) :
    (layer T a).get i = xorOver fun t => T.C t (byteOf (a.get (i - t)) t) :=
  Words.get_ofFn _ i

/-- KEYROUND is LAYER with the round constant in word 0 only (rule R122). -/
theorem get_keyRound (T : Tables) (k : Words) (r : Fin 10) (i : Fin 8) :
    (keyRound T k r).get i = (layer T k).get i ^^^ (if i = 0 then T.RC r else 0) := by
  rw [keyRound, Words.get_with_w0]
  split
  case isTrue h => subst h; rfl
  case isFalse => exact (BitVec.xor_zero).symm

/-- STATEROUND exclusive-ors the new key into LAYER of the state (rule R123). -/
theorem get_stateRound (T : Tables) (x k' : Words) (i : Fin 8) :
    (stateRound T x k').get i = (layer T x).get i ^^^ k'.get i :=
  get_xorWords _ _ i

/-- Settles O21: the sum over `t` written out, then the key step and the state step word by word. -/
theorem roundUsesNewKey : Obligations.RoundUsesNewKey := by
  intro T p r i
  refine ⟨fun a => ?_, get_keyRound T p.key r i, get_stateRound T p.state (keyRound T p.key r) i⟩
  rw [get_layer, xorOver, sub_zero]

/-! ### COMPRESS (rule R125) -/

/-- A chain that goes on by `f` at each index in order ends where the fold over all indices ends. -/
theorem foldl_finRange_of_chain {α : Type} (n : Nat) (f : α → Fin n → α) (p : Nat → α)
    (hstep : ∀ r : Fin n, p (r.val + 1) = f (p r.val) r) : (List.finRange n).foldl f (p 0) = p n := by
  induction n with
  | zero => rfl
  | succ n ih =>
    rw [List.finRange_succ_last, List.foldl_append, List.foldl_map, ih (fun a r => f a r.castSucc) fun r => hstep r.castSucc]
    exact (hstep (Fin.last n)).symm

theorem roundNumbers_eq_finRange : Config.roundNumbers = List.finRange 10 := by decide

/-- The permutation ends where any chain of rounds 0 to 9 from its start ends (rule R125, step 2). -/
theorem permute_of_chain (T : Tables) (p : Nat → RoundPair)
    (hstep : ∀ r : Fin 10, p (r.val + 1) = Machine.round T (p r.val) r) : permute T (p 0) = p 10 := by
  rw [permute, roundNumbers_eq_finRange]
  exact foldl_finRange_of_chain 10 (Machine.round T) p hstep

/-- Settles O22: the chain starts at the permutation's start, so it ends where the permutation does; the rest is the
feed-forward. -/
theorem compressIsTenRoundsAndFeedForward : Obligations.CompressIsTenRoundsAndFeedForward := by
  intro T h m p hkey hstate hstep i
  have hstart : (p 0).state = xorWords m h := Words.ext_get fun i => by rw [hstate, get_xorWords]
  have hend : permute T { key := h, state := xorWords m h } = p 10 := by
    rw [← permute_of_chain T p hstep, ← hstart, ← hkey]
  rw [compress, hend, get_xorWords, get_xorWords]

/-! ### LAYER byte by byte (rule R127) -/

/-- A byte of an exclusive or over eight words, as a fold over the indices. -/
theorem byteOf_xorOver_eq_foldl (f : Fin 8 → Word) (k : Fin 8) :
    byteOf (xorOver f) k = (List.finRange 8).foldl (fun v t => v ^^^ byteOf (f t) k) 0x00 := by
  rw [byteOf_xorOver, ← BitVec.zero_xor (x := byteOf (f 0) k)]
  rfl

/-- Settles O19: a byte of a sum is the sum of the bytes, and each byte of C is a multiple of a substitution value. -/
theorem layerByteByByte : Obligations.LayerByteByByte := by
  intro a i k
  simp only [get_layer, byteOf_xorOver_eq_foldl, byteOf_built_C]

/-! ### Full diffusion (rule R127) -/

/-- A byte added under the exclusive or of two conditions is added under each. -/
theorem ite_xor_conditions (b c : Bool) (d : Byte) :
    (if b ^^ c then d else 0) = (if b then d else 0) ^^^ (if c then d else 0) := by
  cases b <;> cases c <;> simp

/-- An exclusive or added under a condition is its two sides added under the condition. -/
theorem ite_xor_bytes (b : Bool) (u v : Byte) :
    (if b then u ^^^ v else 0) = (if b then u else 0) ^^^ (if b then v else 0) := by
  cases b <;> simp

/-- Doubling distributes over exclusive or (rule R100). -/
theorem xtime_xor (u v : Byte) : xtime (u ^^^ v) = xtime u ^^^ xtime v := by
  simp only [xtime_eq_shift, BitVec.shiftLeft_xor_distrib, BitVec.getLsbD_xor, ite_xor_conditions]
  ac_rfl

/-- Multiplication by a fixed multiplier distributes over exclusive or (rule R104). -/
theorem gfTimes_xor (c : BitVec 4) (u v : Byte) : gfTimes c (u ^^^ v) = gfTimes c u ^^^ gfTimes c v := by
  simp only [gfTimes, mult, xtime_xor, ite_xor_bytes]
  ac_rfl

/-- No multiplier of a row takes a byte other than zero to zero: none of them is a zero divisor. -/
theorem eq_zero_of_gfTimes_rowMultiplier (k : Fin 8) (v : Byte) (h : gfTimes (rowMultiplier k) v = 0) : v = 0 := by
  revert k v
  decide +kernel

/-- A multiplier of a row keeps different bytes different. -/
theorem gfTimes_rowMultiplier_injective (k : Fin 8) : Function.Injective (gfTimes (rowMultiplier k)) := by
  intro u v huv
  have hzero : gfTimes (rowMultiplier k) (u ^^^ v) = 0 := by
    rw [gfTimes_xor, huv]
    exact BitVec.xor_self
  exact BitVec.xor_eq_zero_iff.1 (eq_zero_of_gfTimes_rowMultiplier k _ hzero)

/-- Different bytes select, in each row of C, entries that differ in every byte. -/
theorem byteOf_built_C_injective (t k : Fin 8) : Function.Injective fun x => byteOf (Tables.built.C t x) k := by
  intro x y hxy
  simp only [byteOf_built_C] at hxy
  exact built_S_injective (gfTimes_rowMultiplier_injective (k - t) hxy)

theorem xorOver_xor (f g : Fin 8 → Word) : xorOver f ^^^ xorOver g = xorOver fun t => f t ^^^ g t := by
  simp only [xorOver]
  ac_rfl

/-- Where all terms but term `t` are zero, the exclusive or is term `t`. -/
theorem xorOver_eq_single (f : Fin 8 → Word) (t : Fin 8) (h : ∀ t', t' ≠ t → f t' = 0) : xorOver f = f t := by
  fin_cases t <;> simp [xorOver, h]

/-- Where two inputs differ at byte position `t` only, each output word differs by what row `t` of C adds. -/
theorem get_layer_xor_get_layer (T : Tables) {a b : Words} (t i : Fin 8)
    (h : ∀ j t', t' ≠ t → byteOf (a.get j) t' = byteOf (b.get j) t') :
    (layer T a).get i ^^^ (layer T b).get i =
      T.C t (byteOf (a.get (i - t)) t) ^^^ T.C t (byteOf (b.get (i - t)) t) := by
  rw [get_layer, get_layer, xorOver_xor]
  exact xorOver_eq_single _ t fun t' ht => h _ t' ht ▸ BitVec.xor_self

/-- Settles O20: the difference of the outputs at word `i` is that of two entries of row `t` of C, selected by byte `t` of word
`i - t`: the same entry unless that word is `j`, and else entries that differ in every byte. -/
theorem layerFullDiffusion : Obligations.LayerFullDiffusion := by
  intro a b j t hsame hdiff
  have hword := fun i => get_layer_xor_get_layer Tables.built t i fun j' t' ht => hsame j' t' (.inr ht)
  refine ⟨fun i hi => ?_, fun k hk => ?_⟩
  · have hj : i - t ≠ j := fun h => hi (sub_eq_iff_eq_add.1 h)
    rw [← BitVec.xor_eq_zero_iff, hword, hsame _ t (.inl hj), BitVec.xor_self]
  · have hbyte := congrArg (byteOf · k) (hword (j + t))
    simp only [byteOf_xor, hk, BitVec.xor_self, add_sub_cancel_right] at hbyte
    exact hdiff (byteOf_built_C_injective t k (BitVec.xor_eq_zero_iff.1 hbyte.symm))

end Sys2Proof.Machine
end

section
/-! PROOFS. The family 42_padding_block_assembly.md: PACK, SER and LENENC byte by byte, the shape of P(m), and what an accepted FINAL
leaves (rules R140 to R148 and R170). -/

namespace Sys2Proof.Machine

/-! ### PACK (rule R140) -/

/-- A concatenation as a number: the left part counts in multiples of the range of the right part. -/
theorem toNat_append_eq_mul_add {n m : Nat} (x : BitVec n) (y : BitVec m) : (x ++ y).toNat = x.toNat * 2 ^ m + y.toNat := by
  rw [BitVec.toNat_append, ← Nat.shiftLeft_add_eq_or_of_lt y.isLt, Nat.shiftLeft_eq]

/-- A packed word as a number: byte `k` has the weight of its place (rule R140). -/
theorem toNat_packWord (b : Fin 8 → Byte) : (packWord b).toNat = ∑ k : Fin 8, (b k).toNat * 2 ^ (56 - 8 * k.val) := by
  simp only [packWord, toNat_append_eq_mul_add, Fin.sum_univ_eight, Fin.coe_ofNat_eq_mod]
  ring

/-- Settles O23: each word of the block packs eight bytes of BUF. -/
theorem packIsBigEndian : Obligations.PackIsBigEndian := by
  intro m i
  refine ⟨byteOf_packBytes m.read i, ?_⟩
  rw [pack, packBytes, Words.get_ofFn, toNat_packWord]

/-! ### SER and PACK (rule R148) -/

theorem getD_toList_ser (h : Words) (j : Nat) (hj : j < 64) : (ser h).toList.getD j 0x00 = (ser h)[j] := by
  rw [List.getD_eq_getElem _ _ (by rwa [Vector.length_toList]), Vector.getElem_toList]

/-- The bytes of a digest pack to the words it was made of (rule R148). -/
theorem packBytes_getD_ser (h : Words) : packBytes (fun j => (ser h).toList.getD j 0x00) = h :=
  packBytes_ser h _ (getD_toList_ser h)

theorem getElem_ser_byteOf (h : Words) (i k : Fin 8) : (ser h)[8 * i.val + k.val] = byteOf (h.get i) k := by
  rw [← congrArg (Words.get · i) (packBytes_getD_ser h), byteOf_packBytes, getD_toList_ser]

theorem getElem_ser_packBytes (b : Nat → Byte) (j : Nat) (hj : j < 64) : (ser (packBytes b))[j] = b j := by
  rw [getElem_ser, byteOf_packBytes, Nat.div_add_mod]

/-- Settles O24: the digest is read byte by byte, and words are equal where their bytes are. -/
theorem serInvertsPack : Obligations.SerInvertsPack :=
  ⟨getElem_ser_byteOf, packBytes_getD_ser, getElem_ser_packBytes⟩

/-! ### The length field (rule R145) -/

/-- Message words 4 to 7 of a block with the length field are the four words of LEN, the most significant first (rule R145). -/
theorem get_pack_lenencInto {m : Memory} (hm : m.wf = true) (len : BitVec 256) (i : Fin 8) (hi : 4 ≤ i.val) :
    (pack (lenencInto len m)).get i = len.extractLsb' (64 * (7 - i.val)) 64 := by
  refine word_ext_byte fun k => ?_
  have hplace : 8 * (31 - (8 * i.val + k.val - 32)) = 64 * (7 - i.val) + (56 - 8 * k.val) := by omega
  rw [pack, byteOf_packBytes, read_lenencInto hm, if_pos (by omega), byteOfField_32, hplace, byteOf_extract]

/-- Settles O25: LENENC writes BUF only, and BUF read after it is LEN at indices 32 to 63. -/
theorem lengthFieldIsBigEndian : Obligations.LengthFieldIsBigEndian := by
  intro s hwf
  rw [lenenc_buf]
  refine ⟨fun k hk => ?_, fun j hj => ?_, rfl, get_pack_lenencInto hwf s.len 4 (by decide),
    get_pack_lenencInto hwf s.len 5 (by decide), get_pack_lenencInto hwf s.len 6 (by decide),
    get_pack_lenencInto hwf s.len 7 (by decide)⟩
  · rw [State.bufRead_def, lenenc_buf, read_lenencInto hwf, if_pos (by omega), Nat.add_sub_cancel_left, byteOfField_32,
      Nat.mul_sub]
  · rw [State.bufRead_def, lenenc_buf, read_lenencInto hwf, if_neg (by omega), State.bufRead_def]

/-! ### The padded message (rule R147) -/

theorem length_padfn (m : List Byte) : (padfn m).length = 64 * blockCount m.length := by
  rw [← padZeros_fills]
  simp only [padfn, List.length_append, List.length_singleton, List.length_replicate, length_be256]
  omega

/-- No smaller number of zero bytes makes the padded message whole blocks. -/
theorem padZeros_le {n z : Nat} (hz : (n + 1 + z + 32) % 64 = 0) : padZeros n ≤ z := by
  unfold padZeros
  omega

/-- Settles O26: the number of blocks, and P(m) read in its four parts. -/
theorem paddedMessageShape : Obligations.PaddedMessageShape := by
  intro m
  refine ⟨length_padfn m, blockCount_eq m.length, ?_, fun z => padZeros_le, fun j => getD_padfn_message m, getD_padfn_mark m,
    fun j => getD_padfn_zero m, fun k hk => ?_⟩
  · rw [padZeros_fills, Nat.mul_mod_right]
  · rw [getD_padfn_length m hk, byteOfField_32, Nat.mul_sub]

/-! ### FINAL (rules R146 and R170) -/

/-- INIT is the only command that leaves Finalized. -/
theorem eq_init_of_leaves_finalized {i : Instr} {s t : State} (h : exec i s = .next t) (hs : s.st = .finalized)
    (ht : t.st ≠ .finalized) : i = .init ∧ t = (startComputation s).setResp (.ok none) := by
  have hm : mayAccumulate s = false := (mayAccumulate_false s).2 (.inl (by rw [hs]; nofun))
  obtain hinit | ⟨_, -, ha, -⟩ | ⟨_, -, ha, -⟩ | ⟨-, ha, -⟩ | ⟨-, -, rfl⟩ | ⟨-, -, -, rfl⟩ := exec_cases h
  · exact hinit
  · cases hm.symm.trans ha
  · cases hm.symm.trans ha
  · cases hm.symm.trans ha
  · exact absurd hs ht
  · exact absurd hs ht

/-- The next state of an accepted FINAL, with the chaining value that PAD leaves (rule R170). -/
theorem exec_final_of_pad_h {s : State} (hst : s.st = .accumulating) (herr : s.err = 0b00) {h : Words} (hpad : (pad s).h = h) :
    exec .final s = .next
      { s with h := h, buf := Memory.zero, pos := 0, len := 0, st := .finalized, resp := some (.ok none) } := by
  rw [exec_final_accepted ((mayAccumulate_iff s).2 ⟨hst, herr⟩), finishComputation_eq, hpad]
  rfl

/-- Index `j` of a block is byte `j - 32` of the length field (rule R145). -/
theorem byteOfField_at_index (len : BitVec 256) {j : Nat} (hj : ¬ j < 32) :
    byteOfField 32 len (j - 32) = len.extractLsb' (8 * (63 - j)) 8 := by
  rw [byteOfField_32, show 31 - (j - 32) = 63 - j by omega]

/-- The length field of the one block, at the indices of the block (rules R145 and R146). -/
theorem lastBlock_at_index (s : State) : lastBlock s = fun j =>
    if j < s.pos.toNat then s.bufRead j
    else if j = s.pos.toNat then 0x80
    else if j < 32 then 0x00
    else s.len.extractLsb' (8 * (63 - j)) 8 := by
  funext j
  unfold lastBlock
  split_ifs with hbuf hmark hzero
  · rfl
  · rfl
  · rfl
  · exact byteOfField_at_index s.len hzero

/-- The length field of the second block, at the indices of the block (rules R145 and R146). -/
theorem lengthBlock_at_index (s : State) : lengthBlock s = fun j =>
    if j < 32 then 0x00 else s.len.extractLsb' (8 * (63 - j)) 8 := by
  funext j
  unfold lengthBlock
  split_ifs with hzero
  · rfl
  · exact byteOfField_at_index s.len hzero

/-- Settles O33: only INIT leaves Finalized, and the blocks that PAD compresses end in the length field. -/
theorem finalPadsAndFinishes : Obligations.FinalPadsAndFinishes := by
  refine ⟨fun i s t hexec hs ht => ?_, fun s hwf hst herr => ⟨fun hp => ?_, fun hp => ?_⟩⟩
  · obtain ⟨hi, rfl⟩ := eq_init_of_leaves_finalized hexec hs ht
    exact ⟨hi, Words.get_zero⟩
  · rw [← lastBlock_at_index]
    exact exec_final_of_pad_h hst herr (pad_h_one hwf hp)
  · rw [← lengthBlock_at_index]
    exact exec_final_of_pad_h hst herr (pad_h_two hwf hp)

end Sys2Proof.Machine
end

section
/-! PROOFS. The family 43_hash_driver.md: what each command does in each state (rules R161 to R177 and R187). -/

namespace Sys2Proof.Machine

/-! ### Refusals: the flag and the response of an error, nothing else -/

theorem raised_invalidState (s : State) :
    s.raised .invalidState = { s with err := s.err ||| 0b01, resp := some .invalidState } := rfl

/-- LENGTH_OVERFLOW is raised in a live computation only, where LO is then the one flag set (rule R166). -/
theorem raised_lengthOverflow {s : State} (herr : s.err = 0b00) :
    s.raised .lengthOverflow = { s with err := 0b10, resp := some .lengthOverflow } := by
  ext <;> simp [herr, errAfter, CoreError.flag, CoreError.response, flagLO]

/-- Settles O31: `exec_add_refused`. -/
theorem addRefusedForState : Obligations.AddRefusedForState := by
  intro b s h
  rw [exec_add_refused ((mayAccumulate_false s).2 h), raised_invalidState]

/-- Settles O34: `exec_final_refused`. -/
theorem finalRefused : Obligations.FinalRefused := by
  intro s h
  rw [exec_final_refused ((mayAccumulate_false s).2 h), raised_invalidState]

/-- Settles O36: `exec_digest_refused`. -/
theorem digestRefused : Obligations.DigestRefused := by
  intro s h
  rw [exec_digest_refused ((mayRead_false s).2 h), raised_invalidState]

/-! ### INIT (rule R162) and DIGEST (rules R176 and R187) -/

/-- Settles O27: the registers of `startComputation`, one by one. -/
theorem initStartsComputation : Obligations.InitStartsComputation :=
  fun s => ⟨_, exec_init s, Words.get_zero, Memory.read_zero, rfl, rfl, rfl, rfl, rfl, rfl, rfl⟩

/-- DIGEST in a live Finalized state answers SER(H) and changes nothing else (rule R176). -/
theorem exec_digest_live {s : State} (hst : s.st = .finalized) (herr : s.err = 0b00) :
    exec .digest s = .next (s.setResp (.ok (some (ser s.h)))) := exec_digest_accepted ((mayRead_iff s).2 ⟨hst, herr⟩)

/-- Settles O35: the data is SER(H), read byte by byte. -/
theorem digestReadsChainingValue : Obligations.DigestReadsChainingValue :=
  fun s hst herr => ⟨ser s.h, exec_digest_live hst herr, getElem_ser_byteOf s.h⟩

/-- DIGEST answers OK with data exactly where it is allowed. -/
theorem digest_answers_data_iff {s t : State} (h : exec .digest s = .next t) :
    (∃ d, t.resp = some (.ok (some d))) ↔ mayRead s = true := by
  cases hm : mayRead s with
  | true =>
    obtain rfl := exec_next_unique h (exec_digest_accepted hm)
    exact iff_of_true ⟨ser s.h, rfl⟩ rfl
  | false =>
    obtain rfl := exec_next_unique h (exec_digest_refused hm)
    exact iff_of_false nofun nofun

/-- Settles O46: "ended well" is DIGEST's own check, and "in progress" that of ADD. -/
theorem resultExactlyWhenEndedWell : Obligations.ResultExactlyWhenEndedWell := by
  intro s t h
  refine ⟨digest_answers_data_iff h, ?_, mayAccumulate_iff s⟩
  rw [State.endedBadly, Bool.not_eq_true', ← Bool.not_eq_true, State.live_iff]

/-! ### ADD in a live Accumulating state (rules R163, R165 and R166) -/

@[simp] theorem takeByte_host (b : Byte) (s : State) : (takeByte b s).host = s.host := by rw [takeByte_eq]; split <;> rfl

section LiveAdd

variable {s : State} (b : Byte) (hst : s.st = .accumulating) (herr : s.err = 0b00)
include hst herr

theorem exec_add_of_room (hlen : s.len.toNat + 8 < 2 ^ 256) :
    exec (.add b) s = .next ((takeByte b s).setResp (.ok none)) :=
  exec_add_accepted ((mayAccumulate_iff s).2 ⟨hst, herr⟩) ((lengthFull_false s).2 hlen)

theorem exec_add_of_full (hlen : 2 ^ 256 ≤ s.len.toNat + 8) :
    exec (.add b) s = .next { s with err := 0b10, resp := some .lengthOverflow } := by
  rw [exec_add_overflow ((mayAccumulate_iff s).2 ⟨hst, herr⟩) ((lengthFull_iff s).2 hlen), raised_lengthOverflow herr]

/-- Where LEN has room for one more byte, ADD answers OK and counts 8 bits (rule R166). -/
theorem add_counts_bits (hlen : s.len.toNat + 8 < 2 ^ 256) :
    ∃ t, exec (.add b) s = .next t ∧ t.resp = some (.ok none) ∧ t.err = 0b00 ∧ t.len.toNat = s.len.toNat + 8 :=
  ⟨_, exec_add_of_room b hst herr hlen, rfl, (takeByte_err s b).trans herr, takeByte_len_toNat b hlen⟩

end LiveAdd

/-- Settles O29: the two cases of `takeByte_eq`. -/
theorem addTakesByte : Obligations.AddTakesByte := by
  intro b s hst herr hlen
  rw [exec_add_of_room b hst herr hlen, takeByte_eq]
  constructor
  · intro hroom
    rw [if_neg hroom]
    rfl
  · intro hfull
    rw [if_pos hfull, hfull]
    rfl

/-- Settles O30: BUF after the byte is one write at POS, read back by `Memory.read_write`. -/
theorem addStoresOneByte : Obligations.AddStoresOneByte := by
  intro b s hwf hst herr hlen hroom
  have hread : ∀ a, (takeByte b s).bufRead a = if a = s.pos.toNat then b else s.bufRead a := fun a => by
    rw [State.bufRead_def, takeByte_buf_of_room b hroom, Memory.read_write hwf, State.bufRead_def]
  have hpos : (s.pos.toNat + 1) % 64 = s.pos.toNat + 1 := by
    have := s.pos.isLt
    have := mt pos_eq_63_iff.2 hroom
    omega
  exact ⟨_, exec_add_of_room b hst herr hlen, (hread _).trans (if_pos rfl), fun a ha => (hread a).trans (if_neg ha),
    (takeByte_pos_toNat b).trans hpos, takeByte_len_toNat b hlen, takeByte_h_of_room b hroom, takeByte_st s b,
    takeByte_err s b, takeByte_tables s b, takeByte_host b s, rfl⟩

/-- LEN counts the bits of the message in 256 bits, so the limit is 2^253 - 1 bytes. -/
theorem length_of_absorbed {s : State} {m : List Byte} (h : Absorbed s m) :
    m.length ≤ 2 ^ 253 - 1 ∧ (2 ^ 256 ≤ s.len.toNat + 8 ↔ m.length = 2 ^ 253 - 1) := by
  have hlen := h.len
  have hlt := s.len.isLt
  omega

/-- Settles O32: the check of the state comes first; then the room in LEN decides between overflow and an accepted byte. -/
theorem addRefusedForLength : Obligations.AddRefusedForLength := by
  refine ⟨fun b s l h => ⟨_, addRefusedForState b { s with len := l } h, rfl⟩, fun s m => length_of_absorbed,
    fun b s hst herr => ⟨exec_add_of_full b hst herr, add_counts_bits b hst herr, fun hmod => ?_, fun hlen => ?_⟩⟩
  · have hlt := s.len.isLt
    omega
  · obtain ⟨t, hexec, hresp, -, hcount⟩ := add_counts_bits b hst herr (by omega)
    exact ⟨t, hexec, by omega, hresp⟩

/-! ### The transition table (rule R161) -/

/-- Settles O37: each cell in its order, by the equation of its command for the state of the cell. -/
theorem transitionTable : Obligations.TransitionTable := by
  refine fun s => ⟨⟨_, exec_init s, rfl, rfl, rfl⟩, fun b => ?add, ?final, ?digest, fun w e hd => ?reserved⟩
  case add =>
    by_cases hlive : s.st = .accumulating ∧ s.err = 0b00
    · simp only [if_pos hlive]
      obtain ⟨hst, herr⟩ := hlive
      by_cases hlen : s.len.toNat + 8 < 2 ^ 256
      · simp only [if_pos hlen]
        exact ⟨_, exec_add_of_room b hst herr hlen, takeByte_st s b, rfl, (takeByte_err s b).trans herr⟩
      · simp only [if_neg hlen]
        exact ⟨_, exec_add_of_full b hst herr (not_lt.1 hlen), rfl, rfl, rfl⟩
    · simp only [if_neg hlive]
      exact ⟨_, addRefusedForState b s (not_and_or.1 hlive), rfl, rfl, rfl⟩
  case final =>
    by_cases hlive : s.st = .accumulating ∧ s.err = 0b00
    · simp only [if_pos hlive]
      exact ⟨_, exec_final_of_pad_h hlive.1 hlive.2 rfl, rfl, rfl, hlive.2⟩
    · simp only [if_neg hlive]
      exact ⟨_, finalRefused s (not_and_or.1 hlive), rfl, rfl, rfl⟩
  case digest =>
    by_cases hlive : s.st = .finalized ∧ s.err = 0b00
    · simp only [if_pos hlive]
      exact ⟨_, exec_digest_live hlive.1 hlive.2, rfl, rfl, hlive.2⟩
    · simp only [if_neg hlive]
      exact ⟨_, digestRefused s (not_and_or.1 hlive), rfl, rfl, rfl⟩
  case reserved =>
    rw [transact_reserved hd, raised_illegalCmd]
    exact ⟨_, rfl, rfl, rfl, rfl⟩

end Sys2Proof.Machine
end

section
/-! PROOFS. The family 43_hash_driver.md: what a whole computation makes true, and conversations of the host with CORE (rules R167,
R172, R178 and R180 to R186). -/

namespace Sys2Proof.Machine

/-! ### A conversation word by word (rules R17 and R226) -/

theorem converse_cons {w : CommandWord} {ws : List CommandWord} {s t u : State} {r : Response} {rs : List Response}
    (h : transact w s = .next t) (hresp : t.resp = some r) (hrest : converse ws t = some (rs, u)) :
    converse (w :: ws) s = some (r :: rs, u) := by
  simp only [converse, h, hresp, hrest]

theorem converse_command {i : Instr} {ws : List CommandWord} {s t u : State} {r : Response} {rs : List Response}
    (h : exec i s = .next t) (hresp : t.resp = some r) (hrest : converse ws t = some (rs, u)) :
    converse (encode i :: ws) s = some (r :: rs, u) :=
  converse_cons ((transact_command (decode_eq_ok_iff.2 rfl) s).trans h) hresp hrest

/-- A transaction answers a next state with a response (rule R78). -/
theorem transact_responds (w : CommandWord) (s : State) : ∃ t r, transact w s = .next t ∧ t.resp = some r := by
  obtain ⟨t, r, hnext, hresp, -⟩ := dataOnlyWithDigestOk.1 w s
  exact ⟨t, r, hnext, hresp⟩

/-- A conversation gets an answer to its first word, and goes on from there. -/
theorem converse_goes_on (ws : List CommandWord) (s : State) : ∃ rs t, converse ws s = some (rs, t) := by
  induction ws generalizing s with
  | nil => exact ⟨[], s, rfl⟩
  | cons w ws ih =>
    obtain ⟨t, r, hnext, hresp⟩ := transact_responds w s
    obtain ⟨rs, u, hrest⟩ := ih t
    exact ⟨r :: rs, u, converse_cons hnext hresp hrest⟩

/-- What a conversation that goes on consists of: the first answer, and the conversation after it. -/
theorem converse_cons_inv {w : CommandWord} {ws : List CommandWord} {s u : State} {rs : List Response}
    (h : converse (w :: ws) s = some (rs, u)) :
    ∃ t r rs', transact w s = .next t ∧ t.resp = some r ∧ converse ws t = some (rs', u) ∧ rs = r :: rs' := by
  obtain ⟨t, r, hnext, hresp⟩ := transact_responds w s
  obtain ⟨rs', u', hrest⟩ := converse_goes_on ws t
  cases h.symm.trans (converse_cons hnext hresp hrest)
  exact ⟨t, r, rs', hnext, hresp, hrest, rfl⟩

theorem converse_append {ws vs : List CommandWord} {s t u : State} {rs qs : List Response}
    (h : converse ws s = some (rs, t)) (h' : converse vs t = some (qs, u)) :
    converse (ws ++ vs) s = some (rs ++ qs, u) := by
  induction ws generalizing s rs with
  | nil =>
    cases h
    exact h'
  | cons w ws ih =>
    obtain ⟨t', r, rs', hnext, hresp, hrest, rfl⟩ := converse_cons_inv h
    exact converse_cons hnext hresp (ih hrest)

/-! ### DIGEST may be repeated (rule R178) -/

/-- Settles O43: each DIGEST leaves a live Finalized state with the same H. -/
theorem digestMayBeRepeated : Obligations.DigestMayBeRepeated := by
  intro s n hst herr
  induction n generalizing s with
  | zero => exact ⟨s, rfl, rfl⟩
  | succ n ih =>
    obtain ⟨t, hconv, ht⟩ := ih (s.setResp (.ok (some (ser s.h)))) hst herr
    exact ⟨t, converse_command (exec_digest_live hst herr) rfl hconv, ht⟩

/-! ### ADDS (rules R180 and R186) -/

theorem addsWords_append (m n : List Byte) : addsWords (m ++ n) = addsWords m ++ addsWords n := List.map_append

/-- Settles O8: the two sides are the same words. -/
theorem anySplitGivesSameHash : Obligations.AnySplitGivesSameHash := by
  intro m k s
  rw [hashWords, List.append_assoc [encode .init], ← addsWords_append, List.take_append_drop]

/-- The state without what a refusal writes: ERR and the response. -/
def State.withoutAnswer (s : State) : State := { s with err := 0b00, resp := none }

theorem eq_of_withoutAnswer_eq {s t : State} (h : t.withoutAnswer = s.withoutAnswer) :
    t = { s with err := t.err, resp := t.resp } :=
  congrArg (fun u : State => { u with err := t.err, resp := t.resp }) h

/-- An error that sets a flag leaves the computation dead (rules R160 and R190). -/
theorem mayAccumulate_raised (s : State) {e : CoreError} (he : e ≠ .illegalCmd) : mayAccumulate (s.raised e) = false := by
  have hflag : ∀ err, errAfter err e ≠ 0b00 := by
    cases e with
    | invalidState => decide
    | lengthOverflow => decide
    | illegalCmd => exact absurd rfl he
  exact (mayAccumulate_false _).2 (.inr (hflag s.err))

/-- An ADD is accepted, or refused with an error that sets a flag. -/
theorem add_accepted_or_refused (b : Byte) (s : State) :
    exec (.add b) s = .next ((takeByte b s).setResp (.ok none)) ∨
      ∃ e, e ≠ .illegalCmd ∧ exec (.add b) s = .next (s.raised e) := by
  cases hm : mayAccumulate s with
  | false => exact .inr ⟨.invalidState, nofun, exec_add_refused hm⟩
  | true =>
    cases hl : lengthFull s with
    | false => exact .inl (exec_add_accepted hm hl)
    | true => exact .inr ⟨.lengthOverflow, nofun, exec_add_overflow hm hl⟩

/-- Where ADD is not allowed, every byte of ADDS is refused. -/
theorem converse_adds_refused {s : State} (hm : mayAccumulate s = false) (m : List Byte) :
    ∃ t, converse (addsWords m) s = some (List.replicate m.length .invalidState, t) ∧ t.withoutAnswer = s.withoutAnswer := by
  induction m generalizing s with
  | nil => exact ⟨s, rfl, rfl⟩
  | cons b m ih =>
    obtain ⟨t, hconv, ht⟩ := ih (mayAccumulate_raised s (e := .invalidState) nofun)
    exact ⟨t, converse_command (exec_add_refused hm) rfl hconv, ht⟩

/-- ADDS whose first byte is refused. -/
theorem converse_adds_first_refused {b : Byte} {s : State} {e : CoreError} (he : e ≠ .illegalCmd)
    (h : exec (.add b) s = .next (s.raised e)) (m : List Byte) :
    ∃ t, converse (addsWords (b :: m)) s = some (e.response :: List.replicate m.length .invalidState, t) ∧
      t.withoutAnswer = s.withoutAnswer := by
  obtain ⟨t, hconv, ht⟩ := converse_adds_refused (mayAccumulate_raised s he) m
  exact ⟨t, converse_command h rfl hconv, ht⟩

/-- None of its responses is OK. -/
theorem getD_refused_responses (e : CoreError) {n j : Nat} (hj : j < n + 1) :
    (e.response :: List.replicate n .invalidState).getD j (.ok none) ≠ .ok none := by
  cases j with
  | zero => cases e <;> nofun
  | succ j =>
    rw [List.getD_cons_succ, List.getD_replicate _ (by omega)]
    nofun

/-- Settles O41, by induction on the bytes: an accepted byte leaves the rest to the induction, and after a refused one the
computation is dead, so every later byte is refused and changes ERR and the response at most. -/
theorem addsTakesEffectByteByByte : Obligations.AddsTakesEffectByteByByte := by
  intro m
  induction m with
  | nil => exact fun s => ⟨[], s, rfl, rfl, fun _ => rfl, fun k hk => absurd hk (Nat.not_lt_zero k)⟩
  | cons b m ih =>
    intro s
    obtain haccepted | ⟨e, he, hrefused⟩ := add_accepted_or_refused b s
    · obtain ⟨rs, t, hconv, hlen, -, hrest⟩ := ih ((takeByte b s).setResp (.ok none))
      refine ⟨.ok none :: rs, t, converse_command haccepted rfl hconv, congrArg Nat.succ hlen, nofun, fun k hk hne => ?_⟩
      cases k with
      | zero => exact absurd rfl hne
      | succ k =>
        obtain ⟨hlater, u, hu, ht⟩ := hrest k (Nat.lt_of_succ_lt_succ hk) hne
        refine ⟨fun j hkj hj => ?_, u, converse_command haccepted rfl hu, ht⟩
        obtain ⟨j, rfl⟩ := Nat.exists_eq_succ_of_ne_zero (by omega : j ≠ 0)
        exact hlater j (Nat.le_of_succ_le_succ hkj) (Nat.lt_of_succ_lt_succ hj)
    · obtain ⟨t, hconv, ht⟩ := converse_adds_first_refused he hrefused m
      refine ⟨_, t, hconv, by simp, nofun, fun k hk _ => ⟨fun j _ hj => getD_refused_responses e hj, ?_⟩⟩
      cases k with
      | zero => exact ⟨s, rfl, eq_of_withoutAnswer_eq ht⟩
      | succ k =>
        obtain ⟨u, hu, hus⟩ := converse_adds_first_refused he hrefused (m.take k)
        refine ⟨u, ?_, eq_of_withoutAnswer_eq (ht.trans hus.symm)⟩
        rw [List.take_succ_cons, List.take_succ_cons, hu, List.length_take, List.take_replicate]

/-! ### A computation that has taken the bytes of a message (rules R167, R172 and R181) -/

/-- A live Accumulating state, BUF canonical, that has absorbed the message. -/
structure Taken (s : State) (m : List Byte) : Prop where
  bufWf : s.buf.wf = true
  absorbed : Absorbed s m
  st : s.st = .accumulating
  err : s.err = 0b00

theorem taken_setResp {s : State} {m : List Byte} (h : Taken s m) (r : Response) : Taken (s.setResp r) m :=
  ⟨h.bufWf, absorbed_same (sameRegisters_setResp s r) h.absorbed, h.st, h.err⟩

theorem taken_start (s : State) : Taken (startComputation s) [] := ⟨Memory.wf_zero, absorbed_start s, rfl, rfl⟩

section Taken

variable {s : State} {m : List Byte} (hs : Taken s m)
include hs

/-- LEN has room for one more byte while the longer message has fewer than 2^256 bits (rule R166). -/
theorem len_room_of_taken (hlen : 8 * (m.length + 1) < 2 ^ 256) : s.len.toNat + 8 < 2 ^ 256 := by
  rw [hs.absorbed.len]
  omega

theorem taken_takeByte (b : Byte) (hlen : 8 * (m.length + 1) < 2 ^ 256) : Taken (takeByte b s) (m ++ [b]) where
  bufWf := wf_takeByte hs.bufWf b
  absorbed := absorbed_take hs.bufWf hs.absorbed b (len_room_of_taken hs hlen)
  st := (takeByte_st s b).trans hs.st
  err := (takeByte_err s b).trans hs.err

theorem exec_add_of_taken (b : Byte) (hlen : 8 * (m.length + 1) < 2 ^ 256) :
    exec (.add b) s = .next ((takeByte b s).setResp (.ok none)) :=
  exec_add_of_room b hs.st hs.err (len_room_of_taken hs hlen)

end Taken

/-- Settles O39: an accepted ADD, and what it has then absorbed. -/
theorem addAbsorbsByte : Obligations.AddAbsorbsByte := by
  intro b s m hwf habs hst herr hlen
  have hs : Taken s m := ⟨hwf, habs, hst, herr⟩
  have ht := taken_setResp (taken_takeByte hs b hlen) (.ok none)
  exact ⟨_, exec_add_of_taken hs b hlen, ht.absorbed, ht.st, ht.err, rfl⟩

/-- Settles O40: PAD leaves the chaining value of the whole padded message in H. -/
theorem finalGivesWhirlpool : Obligations.FinalGivesWhirlpool :=
  fun _ _ hwf habs hst herr =>
    ⟨_, exec_final_of_pad_h hst herr (pad_h_of_absorbed habs hwf), rfl, rfl, herr, rfl⟩

/-- ADDS of a message that fits is accepted byte by byte. -/
theorem converse_adds_of_taken {s : State} {m : List Byte} (hs : Taken s m) (n : List Byte)
    (hlen : 8 * (m.length + n.length) < 2 ^ 256) :
    ∃ t, converse (addsWords n) s = some (List.replicate n.length (.ok none), t) ∧ Taken t (m ++ n) ∧ t.tables = s.tables := by
  induction n generalizing s m with
  | nil => exact ⟨s, rfl, by rwa [List.append_nil], rfl⟩
  | cons b n ih =>
    rw [List.length_cons] at hlen
    have hroom : 8 * (m.length + 1) < 2 ^ 256 := by omega
    have hnext : Taken ((takeByte b s).setResp (.ok none)) (m ++ [b]) := taken_setResp (taken_takeByte hs b hroom) _
    obtain ⟨t, hconv, ht, htables⟩ := ih hnext (by rw [List.length_append, List.length_singleton]; omega)
    exact ⟨t, converse_command (exec_add_of_taken hs b hroom) rfl hconv, by rwa [List.append_cons],
      htables.trans (takeByte_tables s b)⟩

/-- FINAL and DIGEST after the bytes of a message (rules R172 and R176). -/
theorem converse_final_digest {s : State} {m : List Byte} (hs : Taken s m) :
    ∃ t, converse [encode .final, encode .digest] s = some ([.ok none, .ok (some (whirlpool s.tables m))], t) ∧
      t.st = .finalized ∧ t.err = 0b00 ∧ t.tables = s.tables := by
  obtain ⟨t, hfinal, hser, hst, herr, hresp⟩ := finalGivesWhirlpool s m hs.bufWf hs.absorbed hs.st hs.err
  have htables := exec_tables hfinal
  have hdigest := exec_digest_live hst herr
  rw [hser] at hdigest
  exact ⟨_, converse_command hfinal hresp (converse_command hdigest rfl rfl), hst, herr, htables⟩

/-- What HASH answers (rule R181). -/
def hashResponses (m : List Byte) : List Response :=
  List.replicate (m.length + 2) (.ok none) ++ [.ok (some (whirlpool Tables.built m))]

theorem length_hashResponses (m : List Byte) : (hashResponses m).length = m.length + 3 := by
  simp [hashResponses]

/-- HASH from any state with the built tables: INIT, the bytes, FINAL and DIGEST in turn (rule R181). -/
theorem converse_hash {s : State} {m : List Byte} (hs : TablesBuilt s) (hlen : m.length < 2 ^ 253) :
    ∃ t, converse (hashWords m) s = some (hashResponses m, t) ∧ t.st = .finalized ∧ t.err = 0b00 ∧ TablesBuilt t := by
  have hinit : converse [encode .init] s = some ([.ok none], (startComputation s).setResp (.ok none)) :=
    converse_command (exec_init s) rfl rfl
  obtain ⟨t, hadds, htaken, htables⟩ := converse_adds_of_taken (taken_setResp (taken_start s) (.ok none)) m
    (by rw [List.length_nil]; omega)
  have ht : t.tables = Tables.built := htables.trans hs
  obtain ⟨u, hfinal, hst, herr, hu⟩ := converse_final_digest htaken
  refine ⟨u, ?_, hst, herr, hu.trans ht⟩
  rw [hashWords, converse_append (converse_append hinit hadds) hfinal, ht, List.nil_append, hashResponses,
    List.replicate_succ', List.replicate_succ]
  simp

/-- Settles O42: `converse_hash`. -/
theorem hashReturnsWhirlpool : Obligations.HashReturnsWhirlpool := by
  intro s m hs hlen
  obtain ⟨t, hconv, hst, herr, -⟩ := converse_hash hs hlen
  exact ⟨t, hconv, hst, herr⟩

/-- Settles O45: each HASH leaves the built tables, from which the next answers its own digest. -/
theorem hashesDoNotInterfere : Obligations.HashesDoNotInterfere := by
  intro s a b hs ha hb
  obtain ⟨s₁, h₁, -, -, hs₁⟩ := converse_hash hs ha
  obtain ⟨s₂, h₂, -, -, hs₂⟩ := converse_hash hs₁ hb
  obtain ⟨s₃, h₃, -⟩ := converse_hash hs₂ ha
  obtain ⟨u, hu, -⟩ := converse_hash (s := State.reset) rfl hb
  exact ⟨hashResponses a, hashResponses b, s₃, u, converse_append (converse_append h₁ h₂) h₃, hu, length_hashResponses a⟩

/-! ### Determinism (rule R182) -/

/-- No transaction reads or writes the host's later moves. -/
theorem transact_setHost {w : CommandWord} {s t : State} (h : transact w s = .next t) (ms : List HostMove) :
    transact w (s.setHost ms) = .next (t.setHost ms) := by
  cases hd : decode w with
  | ok i =>
    rw [transact_command hd] at h ⊢
    exact exec_setHost h ms
  | error e =>
    rw [transact_reserved hd, Host.Outcome.next.injEq] at h
    rw [transact_reserved hd, raised_setHost, h]

/-- Nor does a conversation. -/
theorem converse_setHost {ws : List CommandWord} {s t : State} {rs : List Response} (h : converse ws s = some (rs, t))
    (ms : List HostMove) : converse ws (s.setHost ms) = some (rs, t.setHost ms) := by
  induction ws generalizing s rs with
  | nil =>
    cases h
    rfl
  | cons w ws ih =>
    obtain ⟨t', r, rs', hnext, hresp, hrest, rfl⟩ := converse_cons_inv h
    exact converse_cons (transact_setHost hnext ms) hresp (ih hrest)

/-- INIT fixes every register, and the response; the tables are constants and the queue is the host's (rules R24 and R162). -/
theorem init_forgets {s s' : State} (htables : s'.tables = s.tables) :
    (startComputation s').setResp (.ok none) = ((startComputation s).setResp (.ok none)).setHost s'.host :=
  State.ext_fields htables rfl rfl rfl rfl rfl rfl rfl rfl

/-- Settles O44: after INIT the two states differ in the queue at most, and no word reads or writes it. -/
theorem responsesDependOnCommandsOnly : Obligations.ResponsesDependOnCommandsOnly := by
  intro s s' ws hs hs'
  obtain ⟨rs, t, hrest⟩ := converse_goes_on ws ((startComputation s).setResp (.ok none))
  have hrest' := converse_setHost hrest s'.host
  rw [← init_forgets (hs'.trans hs.symm)] at hrest'
  exact ⟨_, t, _, converse_command (exec_init s) rfl hrest, converse_command (exec_init s') rfl hrest', rfl⟩

end Sys2Proof.Machine
end

section
/-! PROOFS. The family 60_exceptions.md: which command raises which error, what a refusal changes, and what a dead computation answers
(rules R190 to R207). -/

namespace Sys2Proof.Machine

/-! ### No step stops the machine (rules R194 and R207) -/

theorem step_goes_on (s : State) : SafeStep s := by
  match hhost : s.host with
  | [] => exact ⟨_, step_idle hhost⟩
  | .reset :: rest => exact ⟨_, step_reset hhost⟩
  | .command w :: rest =>
    cases hd : decode w with
    | error e => exact ⟨_, step_reserved hhost hd⟩
    | ok i =>
      obtain ⟨t, ht⟩ := exec_goes_on i (s.setHost rest)
      exact ⟨t, (step_command hhost hd).trans ht⟩

/-- Settles O11: `step_goes_on` and `step_idle`. -/
theorem stepAlwaysGoesOn : Obligations.StepAlwaysGoesOn := fun s => ⟨step_goes_on s, step_idle⟩

/-! ### The causes of the errors, and what a refused command changes (rules R191, R192 and R198) -/

/-- A command other than INIT whose own check of ST and ERR fails. -/
def RefusedForState (i : Instr) (s : State) : Prop :=
  i ≠ .init ∧ (i = .digest → mayRead s = false) ∧ (i ≠ .digest → mayAccumulate s = false)

/-- The three commands of rule R191, each with its condition. -/
theorem refusedForState_iff {i : Instr} {s : State} :
    RefusedForState i s ↔
      ((∃ b, i = .add b) ∧ (s.st ≠ .accumulating ∨ s.err ≠ 0b00)) ∨
      (i = .final ∧ (s.st ≠ .accumulating ∨ s.err ≠ 0b00)) ∨
      (i = .digest ∧ (s.st ≠ .finalized ∨ s.err ≠ 0b00)) := by
  rw [← mayAccumulate_false, ← mayRead_false]
  cases i <;> simp [RefusedForState]

section Responses

variable {i : Instr} {s t : State} (h : exec i s = .next t)
include h

/-- Of the six cases of a command, the last alone answers INVALID_STATE. -/
theorem refused_of_resp_invalidState (hresp : t.resp = some .invalidState) :
    RefusedForState i s ∧ t = s.raised .invalidState := by
  obtain ⟨-, rfl⟩ | ⟨b, -, -, -, rfl⟩ | ⟨b, -, -, -, rfl⟩ | ⟨-, -, rfl⟩ | ⟨-, -, rfl⟩ | ⟨hi, hr, hm, rfl⟩ := exec_cases h
  · cases hresp
  · cases hresp
  · cases hresp
  · cases hresp
  · cases hresp
  · exact ⟨⟨hi, hr, hm⟩, rfl⟩

/-- Of the six cases of a command, the third alone answers LENGTH_OVERFLOW. -/
theorem overflow_of_resp_lengthOverflow (hresp : t.resp = some .lengthOverflow) :
    (∃ b, i = .add b) ∧ mayAccumulate s = true ∧ lengthFull s = true ∧ t = s.raised .lengthOverflow := by
  obtain ⟨-, rfl⟩ | ⟨b, -, -, -, rfl⟩ | ⟨b, hi, hm, hl, rfl⟩ | ⟨-, -, rfl⟩ | ⟨-, -, rfl⟩ | ⟨-, -, -, rfl⟩ := exec_cases h
  · cases hresp
  · cases hresp
  · exact ⟨⟨b, hi⟩, hm, hl, rfl⟩
  · cases hresp
  · cases hresp
  · cases hresp

/-- ILLEGAL_CMD is the answer to reserved words only (rule R193). -/
theorem resp_ne_illegalCmd : t.resp ≠ some .illegalCmd := by
  intro hresp
  obtain ⟨-, rfl⟩ | ⟨b, -, -, -, rfl⟩ | ⟨b, -, -, -, rfl⟩ | ⟨-, -, rfl⟩ | ⟨-, -, rfl⟩ | ⟨-, -, -, rfl⟩ := exec_cases h <;>
    cases hresp

theorem resp_invalidState_iff : t.resp = some .invalidState ↔ RefusedForState i s := by
  refine ⟨fun hresp => (refused_of_resp_invalidState h hresp).1, fun ⟨hi, hr, hm⟩ => ?_⟩
  rw [exec_next_unique h (exec_refused hi hr hm)]
  rfl

theorem resp_lengthOverflow_iff :
    t.resp = some .lengthOverflow ↔ (∃ b, i = .add b) ∧ mayAccumulate s = true ∧ lengthFull s = true := by
  constructor
  · intro hresp
    obtain ⟨hi, hm, hl, -⟩ := overflow_of_resp_lengthOverflow h hresp
    exact ⟨hi, hm, hl⟩
  · rintro ⟨⟨b, rfl⟩, hm, hl⟩
    rw [exec_next_unique h (exec_add_overflow hm hl)]
    rfl

end Responses

/-- Settles O47: each response exactly under the checks that raise it, the checks written out in ST, ERR and LEN. -/
theorem errorCausesExact : Obligations.ErrorCausesExact := by
  intro i s t h
  refine ⟨(resp_invalidState_iff h).trans refusedForState_iff, ?_, resp_ne_illegalCmd h⟩
  rw [resp_lengthOverflow_iff h, mayAccumulate_iff, lengthFull_iff, and_assoc]

/-- Settles O48: either answer comes with the state `State.raised`. -/
theorem refusalsArePrecise : Obligations.RefusalsArePrecise := by
  refine fun i s t h => ⟨fun hresp => (refused_of_resp_invalidState h hresp).2, fun hresp => ?_⟩
  obtain ⟨-, -, -, rfl⟩ := overflow_of_resp_lengthOverflow h hresp
  rfl

/-! ### A dead computation (rules R199 and R200) -/

/-- The flags are sticky (rule R30). -/
theorem errAfter_ne_zero {err : BitVec 2} (h : err ≠ 0b00) (e : CoreError) : errAfter err e ≠ 0b00 := fun h0 =>
  h (BitVec.or_eq_zero_iff.1 h0).1

/-- The error by which a dead computation answers a word that is not INIT. -/
def deadError (w : CommandWord) : CoreError := if (decode w).toOption.isSome then .invalidState else .illegalCmd

theorem deadError_response (w : CommandWord) :
    (deadError w).response = if (decode w).toOption.isSome then .invalidState else .illegalCmd :=
  apply_ite CoreError.response ..

theorem deadError_flag (w : CommandWord) :
    (deadError w).flag = if (decode w).toOption.isSome then 0b01 else 0b00 :=
  apply_ite CoreError.flag ..

section Dead

variable {s : State} (herr : s.err ≠ 0b00)
include herr

theorem exec_dead {i : Instr} (hi : i ≠ .init) : exec i s = .next (s.raised .invalidState) :=
  exec_refused hi (fun _ => (mayRead_false s).2 (.inr herr)) fun _ => (mayAccumulate_false s).2 (.inr herr)

theorem transact_dead {w : CommandWord} (hw : decode w ≠ .ok .init) : transact w s = .next (s.raised (deadError w)) := by
  cases hd : decode w with
  | ok i =>
    have hi : i ≠ .init := fun hi => hw (hi ▸ hd)
    rw [transact_command hd, exec_dead herr hi, deadError, hd]
    rfl
  | error e =>
    rw [transact_reserved hd, deadError, hd]
    rfl

/-- Word after word the computation stays dead, each error sets its flag, and nothing else changes but the response. -/
theorem converse_dead {ws : List CommandWord} (hws : ∀ w ∈ ws, decode w ≠ .ok .init) :
    ∃ t, converse ws s = some (ws.map fun w => (deadError w).response, t) ∧ t.withoutAnswer = s.withoutAnswer ∧
      t.err = ws.foldl (fun err w => errAfter err (deadError w)) s.err := by
  induction ws generalizing s with
  | nil => exact ⟨s, rfl, rfl, rfl⟩
  | cons w ws ih =>
    obtain ⟨hw, hws⟩ := List.forall_mem_cons.1 hws
    obtain ⟨t, hconv, ht, hflags⟩ := ih (s := s.raised (deadError w)) (errAfter_ne_zero herr _) hws
    exact ⟨t, converse_cons (transact_dead herr hw) rfl hconv, ht, hflags⟩

end Dead

/-- IS is set by the first command among the words, and set again by the others. -/
theorem foldl_errAfter_deadError (ws : List CommandWord) (err : BitVec 2) :
    ws.foldl (fun err w => errAfter err (deadError w)) err =
      if ws.any fun w => (decode w).toOption.isSome then err ||| 0b01 else err := by
  induction ws generalizing err with
  | nil => rfl
  | cons w ws ih =>
    rw [List.foldl_cons, ih, errAfter, deadError_flag, List.any_cons]
    cases (decode w).toOption.isSome <;> simp [BitVec.or_assoc]

/-- Settles O49: the conversation in a dead computation, and INIT as the one command that it does not refuse. -/
theorem deadUntilInit : Obligations.DeadUntilInit := by
  refine ⟨fun ws s herr hws => ?_, fun i s t h herr herr' => ?_⟩
  · obtain ⟨t, hconv, ht, hflags⟩ := converse_dead herr hws
    rw [foldl_errAfter_deadError] at hflags
    simp only [deadError_response] at hconv
    exact ⟨t, hconv, hflags ▸ eq_of_withoutAnswer_eq ht⟩
  · obtain rfl : i = .init := by
      by_contra hi
      obtain rfl := exec_next_unique h (exec_dead herr hi)
      exact errAfter_ne_zero herr _ herr'
    obtain rfl := exec_next_unique h (exec_init s)
    exact ⟨rfl, Words.get_zero⟩

/-! ### Both flags (rule R201) -/

/-- A command that brings ERR to both flags is refused for the state, with LO set before: an accepted command keeps ERR or clears it,
and LENGTH_OVERFLOW comes in a live computation, where it sets LO alone. -/
theorem exec_both_flags {i : Instr} {s t : State} (h : exec i s = .next t) (ht : t.err = 0b11) (hs : s.err ≠ 0b11) :
    s.err = 0b10 ∧ t.resp = some .invalidState := by
  obtain ⟨-, rfl⟩ | ⟨b, -, -, -, rfl⟩ | ⟨b, -, hm, -, rfl⟩ | ⟨-, -, rfl⟩ | ⟨-, -, rfl⟩ | ⟨-, -, -, rfl⟩ := exec_cases h
  · cases ht
  · rw [State.setResp_err, takeByte_err] at ht
    exact absurd ht hs
  · rw [raised_lengthOverflow ((mayAccumulate_iff s).1 hm).2] at ht
    cases ht
  · rw [State.setResp_err, finishComputation_err] at ht
    exact absurd ht hs
  · exact absurd ht hs
  · have only_from_lo : ∀ err : BitVec 2, err ||| 0b01 = 0b11 → err ≠ 0b11 → err = 0b10 := by decide
    exact ⟨only_from_lo s.err ht hs, rfl⟩

/-- Settles O50: of the four cases of a step, a command alone can bring ERR to both flags. -/
theorem bothFlagsOnlyAfterOverflow : Obligations.BothFlagsOnlyAfterOverflow := by
  intro s t h ht hs
  obtain ⟨-, rfl⟩ | ⟨w, i, rest, -, -, hexec⟩ | ⟨w, e, rest, -, -, rfl⟩ | ⟨rest, -, rfl⟩ := step_cases h
  · exact absurd ht hs
  · exact exec_both_flags (s := s.setHost rest) hexec ht hs
  · rw [raised_illegalCmd] at ht
    exact absurd ht hs
  · cases ht

end Sys2Proof.Machine
end

section
/-! PROOFS. The family 70_reset_and_hazards.md: what a reset move leaves, and how reset and INIT differ (rules R220 to R223). -/

namespace Sys2Proof.Machine

/-! ### Reset (rules R220 and R223) -/

/-- STATUS shows ERR and ST, not the host's moves (rule R31). -/
@[simp] theorem status_setHost (s : State) (ms : List HostMove) : (s.setHost ms).status = s.status := rfl

/-- Settles O12: `step_reset`, and the registers of `State.reset`, which the queue does not touch. -/
theorem resetMoveGivesResetValues : Obligations.ResetMoveGivesResetValues :=
  fun _ _ hhost => ⟨_, step_reset hhost, rfl, Words.get_zero, Memory.read_zero, rfl, rfl, rfl, rfl,
    status_setHost _ _, rfl, rfl⟩

/-! ### Reset and INIT (rule R222) -/

/-- INIT leaves the registers of reset but ST, and gives a response (rule R222). -/
theorem startComputation_eq_reset {s : State} (hs : TablesBuilt s) :
    (startComputation s).setResp (.ok none) =
      { State.reset with host := s.host, st := .accumulating, resp := some (.ok none) } :=
  State.ext_fields hs rfl rfl rfl rfl rfl rfl rfl rfl

/-- No command reaches Empty: INIT and FINAL leave another state, and every other outcome keeps ST. -/
theorem empty_before_of_exec_empty {i : Instr} {s t : State} (h : exec i s = .next t) (ht : t.st = .empty) : s.st = .empty := by
  obtain ⟨-, rfl⟩ | ⟨b, -, -, -, rfl⟩ | ⟨b, -, -, -, rfl⟩ | ⟨-, -, rfl⟩ | ⟨-, -, rfl⟩ | ⟨-, -, -, rfl⟩ := exec_cases h
  · cases ht
  · rwa [State.setResp_st, takeByte_st] at ht
  · exact ht
  · rw [State.setResp_st, finishComputation_st] at ht
    cases ht
  · exact ht
  · exact ht

/-- Settles O28: INIT leaves the same registers from the built tables as from reset, and `empty_before_of_exec_empty`. -/
theorem initIsResetIntoAccumulating : Obligations.InitIsResetIntoAccumulating := by
  refine ⟨fun s t hs hexec => ?_, fun s hs => ?_, fun i s t => empty_before_of_exec_empty⟩
  · rw [exec_next_unique hexec (exec_init s), startComputation_eq_reset hs]
    rfl
  · rw [exec_init, exec_init s, startComputation_eq_reset hs,
      startComputation_eq_reset (s := { State.reset with host := s.host }) rfl]

end Sys2Proof.Machine
end

section
/-! PROOFS. Several instances: what the steps of a system do to each, in any order (rules R64 and R205). -/

namespace Sys2Proof.Machine

/-! ### CORE alone: it never stops, so a run is its step iterated (rules R194 and R207) -/

/-- An instance never has to stay. -/
theorem step_eq_next_stepOrStay (s : State) : step s = .next (stepOrStay s) := by
  obtain ⟨t, ht⟩ := step_goes_on s
  rw [stepOrStay_next ht, ht]

/-- A run of any machine goes on from where its first step leads. -/
theorem run_succ_of_step_next {M : Host.Core} {s t : M.State} (h : M.step s = .next t) (n : Nat) :
    M.run (n + 1) s = M.run n t := by
  rw [Host.Core.run, h]

theorem core_run_eq_iterate (n : Nat) (s : State) : Sys2Proof.core.run n s = .next (stepOrStay^[n] s) := by
  induction n generalizing s with
  | zero => rfl
  | succ n ih => exact (run_succ_of_step_next (M := Sys2Proof.core) (step_eq_next_stepOrStay s) n).trans (ih (stepOrStay s))

/-! ### The instances of a system (rule R64) -/

namespace System

variable (sys : System) (schedule : List Nat)

theorem getElem?_stepAt_self (k : Nat) : (sys.stepAt k)[k]? = sys[k]?.map stepOrStay :=
  List.getElem?_modify_eq stepOrStay k sys

theorem getElem?_stepAt_of_ne {j k : Nat} (h : j ≠ k) : (sys.stepAt k)[j]? = sys[j]? :=
  List.getElem?_modify_ne stepOrStay sys h.symm

theorem stepAt_comm {j k : Nat} (h : j ≠ k) : (sys.stepAt j).stepAt k = (sys.stepAt k).stepAt j :=
  List.modify_modify_ne stepOrStay stepOrStay sys h

/-- No schedule adds or drops an instance. -/
theorem length_foldl_stepAt : (schedule.foldl stepAt sys).length = sys.length := by
  induction schedule generalizing sys with
  | nil => rfl
  | cons k ks ih => rw [List.foldl_cons, ih, length_stepAt]

/-- A schedule gives each instance as many steps as it names it, whatever it names in between. -/
theorem getElem?_foldl_stepAt (j : Nat) :
    (schedule.foldl stepAt sys)[j]? = sys[j]?.map stepOrStay^[schedule.count j] := by
  induction schedule generalizing sys with
  | nil => exact Option.map_id_apply.symm
  | cons k ks ih =>
    rw [List.foldl_cons, ih]
    by_cases hjk : j = k
    · subst hjk
      rw [getElem?_stepAt_self, Option.map_map, List.count_cons_self, Function.iterate_succ]
    · rw [getElem?_stepAt_of_ne sys hjk, List.count_cons_of_ne (Ne.symm hjk)]

end System

/-- Settles O53: a step of the system modifies one place of the list, and a schedule comes to each instance as its own steps
iterated, which is CORE's run of it. -/
theorem instancesCommute : Obligations.InstancesCommute := by
  refine ⟨fun sys k j h => sys.getElem?_stepAt_of_ne h, fun sys k s hs => ?_, fun sys schedule j s hs => ?_,
    fun sys schedule => sys.length_foldl_stepAt schedule, fun sys j k h => sys.stepAt_comm h⟩
  · exact ⟨stepOrStay s, step_eq_next_stepOrStay s, (sys.getElem?_stepAt_self k).trans (congrArg _ hs)⟩
  · exact ⟨_, core_run_eq_iterate (schedule.count j) s, (sys.getElem?_foldl_stepAt schedule j).trans (congrArg _ hs)⟩

end Sys2Proof.Machine
end
